-- ==== Sys2Proof/Word.lean ====
section
/-! DEFINITION. The word types of the KSB block (spec/00_scope.md R6, R9): unsigned bit vectors of stated width. -/

namespace Sys2Proof

/-- A byte of the message buffer, the digest or the register map (R50: a byte is 8 bits). -/
abbrev Byte := BitVec 8

/-- A Keccak lane (R6 LANE_W = 64), and also the 64-bit data of one host bus access (R8 BUS_W = 64). -/
abbrev Lane := BitVec 64

/-- A command word (R80: every command is one 32-bit word). -/
abbrev CmdWord := BitVec 32

/-- A 256-bit value: a general register, a coordinate, a scalar, a modulus (R6 FIELD_W = 256). -/
abbrev XWord := BitVec 256

end Sys2Proof
end

