-- ==== Sys2Proof/Syntax.lean ====
section
/-! DEFINITION. The commands of KSB, one constructor per row of spec/opcode_table.json (spec/30_encoding.md R85).
Operands stand in the assembler's order, destination first (R89). -/

namespace Sys2Proof

/-- A general register `x0` to `x15` (R23, R84). -/
abbrev XReg := Fin 16

/-- A point register `P0` to `P3` (R24, R84). -/
abbrev PReg := Fin 4

/-- The constant that `LDC` loads (R83, R147): the selector `cidx` 0 to 3, by name as R89 writes it. -/
inductive CurveConst where
  /-- `cidx` 0: the field prime. -/
  | p
  /-- `cidx` 1: the order of the generator. -/
  | n
  /-- `cidx` 2: the generator's x coordinate. -/
  | gx
  /-- `cidx` 3: the generator's y coordinate. -/
  | gy
deriving DecidableEq, Repr

/-- The sixteen commands (R85). -/
inductive Instr where
  /-- `KINIT` (R109) -/
  | kinit
  /-- `KF` (R110) -/
  | kf
  /-- `KPAD` (R122) -/
  | kpad
  /-- `KABSORB imm16` (R123) -/
  | kabsorb (imm16 : BitVec 16)
  /-- `KSQUEEZE` (R125) -/
  | ksqueeze
  /-- `KHASH` (R127) -/
  | khash
  /-- `MODMUL rd, rs1, rs2, rm` (R143) -/
  | modmul (rd rs1 rs2 rm : XReg)
  /-- `MODPOW rd, rs1, rs2, rm` (R144) -/
  | modpow (rd rs1 rs2 rm : XReg)
  /-- `MODINV rd, rs1, rm` (R146) -/
  | modinv (rd rs1 rm : XReg)
  /-- `LDC rd, cidx` (R147) -/
  | ldc (rd : XReg) (c : CurveConst)
  /-- `PADD Pd, Pa, Pb` (R163) -/
  | padd (pd pa pb : PReg)
  /-- `PDBL Pd, Pa` (R164) -/
  | pdbl (pd pa : PReg)
  /-- `SMUL Pd, xk, Pa` (R165) -/
  | smul (pd : PReg) (rk : XReg) (pa : PReg)
  /-- `LDG Pd` (R167) -/
  | ldg (pd : PReg)
  /-- `PSER Pa` (R181) -/
  | pser (pa : PReg)
  /-- `K2ADDR xk` (R183) -/
  | k2addr (rk : XReg)
deriving DecidableEq, Repr

end Sys2Proof
end

