-- ==== Sys2Proof/WellFormed.lean ====
section
/-! DEFINITION. What a legal command word looks like, by the FORMAT table of spec/30_encoding.md R82 (not by the mask and
match table of R85, which Decode.lean uses): two readings of the same rule that a statement proves equal. -/

namespace Sys2Proof

/-- The fields of a command word (R81): bits 31:24, `d` 23:20, `c` 19:16, `b` 15:12, `a` 11:8, `opcode` 7:0. -/
structure Fields where
  zero : BitVec 8
  d : BitVec 4
  c : BitVec 4
  b : BitVec 4
  a : BitVec 4
  opcode : BitVec 8
deriving DecidableEq, Repr

/-- The fields of a word, at the places R81 gives them. -/
def Fields.ofWord (w : CmdWord) : Fields :=
  { zero := w.extractLsb' 24 8, d := w.extractLsb' 20 4, c := w.extractLsb' 16 4,
    b := w.extractLsb' 12 4, a := w.extractLsb' 8 4, opcode := w.extractLsb' 0 8 }

/-- The formats of R82. -/
inductive Format where
  | N | I | M4 | M3 | C | P3 | P2 | PS | P1 | PR | XR
deriving DecidableEq, Repr

/-- Why a word is not a command (R87 lists the kinds). -/
inductive FormError where
  /-- bits 31:24 are not zero -/
  | topByteNonZero
  /-- the opcode is none of the 16 of R85 -/
  | opcodeUnassigned
  /-- a field that the format does not use is not zero -/
  | unusedFieldNonZero
  /-- a point-register field holds 4 or more (R83) -/
  | pointIndexRange
  /-- the constant selector of `LDC` holds 4 or more (R83) -/
  | constIndexRange
deriving DecidableEq, Repr

/-- The format of each opcode (R82, R85). -/
def formatOf (opcode : BitVec 8) : Option Format :=
  match opcode.toNat with
  | 0x01 => some .N
  | 0x02 => some .N
  | 0x03 => some .N
  | 0x04 => some .I
  | 0x05 => some .N
  | 0x06 => some .N
  | 0x10 => some .M4
  | 0x11 => some .M4
  | 0x12 => some .M3
  | 0x13 => some .C
  | 0x20 => some .P3
  | 0x21 => some .P2
  | 0x22 => some .PS
  | 0x23 => some .P1
  | 0x24 => some .PR
  | 0x30 => some .XR
  | _ => none

/-- The fields a format does not use are zero (R82: "0" means the bits must be zero). -/
def Fields.unusedZero (f : Fields) : Format → Bool
  | .N => f.a == 0 && f.b == 0 && f.c == 0 && f.d == 0
  | .I => true
  | .M4 => true
  | .M3 => f.c == 0
  | .C => f.c == 0 && f.d == 0
  | .P3 => f.d == 0
  | .P2 => f.c == 0 && f.d == 0
  | .PS => f.d == 0
  | .P1 => f.b == 0 && f.c == 0 && f.d == 0
  | .PR => f.a == 0 && f.c == 0 && f.d == 0
  | .XR => f.a == 0 && f.c == 0 && f.d == 0

/-- The point-register fields of a format hold 0 to 3 (R82, R83). -/
def Fields.pointsInRange (f : Fields) : Format → Bool
  | .P3 => decide (f.a.toNat < 4) && decide (f.b.toNat < 4) && decide (f.c.toNat < 4)
  | .P2 => decide (f.a.toNat < 4) && decide (f.b.toNat < 4)
  | .PS => decide (f.a.toNat < 4) && decide (f.c.toNat < 4)
  | .P1 => decide (f.a.toNat < 4)
  | .PR => decide (f.b.toNat < 4)
  | _ => true

/-- The constant selector of format C holds 0 to 3 (R83). -/
def Fields.constInRange (f : Fields) : Format → Bool
  | .C => decide (f.b.toNat < 4)
  | _ => true

/-- Every check of R81 to R83 and R87, each refusing by its own name. -/
def Fields.check (f : Fields) : Except FormError Format :=
  if f.zero ≠ 0 then .error .topByteNonZero
  else match formatOf f.opcode with
    | none => .error .opcodeUnassigned
    | some fmt =>
      if !f.unusedZero fmt then .error .unusedFieldNonZero
      else if !f.pointsInRange fmt then .error .pointIndexRange
      else if !f.constInRange fmt then .error .constIndexRange
      else .ok fmt

/-- A word is well formed when its fields pass every check. -/
def WellFormedWord (w : CmdWord) : Bool :=
  match (Fields.ofWord w).check with
  | .ok _ => true
  | .error _ => false

/-- The operand bounds of R82 on an instruction. The operand types carry these bounds, so every term of `Instr` has
them; the checks that can refuse are those on a word's fields, above. -/
def Instr.wellFormed : Instr → Bool
  | .kinit | .kf | .kpad | .ksqueeze | .khash => true
  | .kabsorb b => decide (b.toNat < 65536)
  | .modmul rd rs1 rs2 rm => decide (rd.val < 16 ∧ rs1.val < 16 ∧ rs2.val < 16 ∧ rm.val < 16)
  | .modpow rd rs1 rs2 rm => decide (rd.val < 16 ∧ rs1.val < 16 ∧ rs2.val < 16 ∧ rm.val < 16)
  | .modinv rd rs1 rm => decide (rd.val < 16 ∧ rs1.val < 16 ∧ rm.val < 16)
  | .ldc rd _ => decide (rd.val < 16)
  | .padd pd pa pb => decide (pd.val < 4 ∧ pa.val < 4 ∧ pb.val < 4)
  | .pdbl pd pa => decide (pd.val < 4 ∧ pa.val < 4)
  | .smul pd rk pa => decide (pd.val < 4 ∧ rk.val < 16 ∧ pa.val < 4)
  | .ldg pd => decide (pd.val < 4)
  | .pser pa => decide (pa.val < 4)
  | .k2addr rk => decide (rk.val < 16)

end Sys2Proof
end

