-- ==== Sys2Proof/Decode.lean ====
section
/-! DEFINITION. Decoding a command word by the mask and match table of spec/30_encoding.md R85 and the procedure of R86,
and the encoder written from the formats of R82. -/

namespace Sys2Proof

/-- The one name under which the decoder rejects a word (R86: the word is illegal). -/
inductive DecodeError where
  | illegalCommand (w : CmdWord)
deriving DecidableEq, Repr

/-- A row of the opcode map (R85): a word is this command exactly when `w and mask = pattern`. -/
structure OpcodeRow where
  mnemonic : String
  mask : CmdWord
  pattern : CmdWord
  build : CmdWord → Instr

/-- The general-register operand whose 4-bit field starts at bit `lo` (R83). -/
def xregAt (w : CmdWord) (lo : Nat) : XReg :=
  ⟨(w.extractLsb' lo 4).toNat, (w.extractLsb' lo 4).isLt⟩

/-- The point-register operand whose field starts at bit `lo`: its two variable bits (R85), the two above them being
zeros of the mask. -/
def pregAt (w : CmdWord) (lo : Nat) : PReg :=
  ⟨(w.extractLsb' lo 2).toNat, (w.extractLsb' lo 2).isLt⟩

/-- The constant selector `cidx`, bits 13:12 (R83, R85). -/
def constAt (w : CmdWord) : CurveConst :=
  match (w.extractLsb' 12 2).toNat with
  | 0 => .p
  | 1 => .n
  | 2 => .gx
  | _ => .gy

/-- The opcode map (R85), in the table's order. -/
def opcodeTable : List OpcodeRow :=
  [ ⟨"KINIT",    0xFFFFFFFF#32, 0x00000001#32, fun _ => .kinit⟩,
    ⟨"KF",       0xFFFFFFFF#32, 0x00000002#32, fun _ => .kf⟩,
    ⟨"KPAD",     0xFFFFFFFF#32, 0x00000003#32, fun _ => .kpad⟩,
    ⟨"KABSORB",  0xFF0000FF#32, 0x00000004#32, fun w => .kabsorb (w.extractLsb' 8 16)⟩,
    ⟨"KSQUEEZE", 0xFFFFFFFF#32, 0x00000005#32, fun _ => .ksqueeze⟩,
    ⟨"KHASH",    0xFFFFFFFF#32, 0x00000006#32, fun _ => .khash⟩,
    ⟨"MODMUL",   0xFF0000FF#32, 0x00000010#32,
      fun w => .modmul (xregAt w 8) (xregAt w 12) (xregAt w 16) (xregAt w 20)⟩,
    ⟨"MODPOW",   0xFF0000FF#32, 0x00000011#32,
      fun w => .modpow (xregAt w 8) (xregAt w 12) (xregAt w 16) (xregAt w 20)⟩,
    ⟨"MODINV",   0xFF0F00FF#32, 0x00000012#32, fun w => .modinv (xregAt w 8) (xregAt w 12) (xregAt w 20)⟩,
    ⟨"LDC",      0xFFFFC0FF#32, 0x00000013#32, fun w => .ldc (xregAt w 8) (constAt w)⟩,
    ⟨"PADD",     0xFFFCCCFF#32, 0x00000020#32, fun w => .padd (pregAt w 8) (pregAt w 12) (pregAt w 16)⟩,
    ⟨"PDBL",     0xFFFFCCFF#32, 0x00000021#32, fun w => .pdbl (pregAt w 8) (pregAt w 12)⟩,
    ⟨"SMUL",     0xFFFC0CFF#32, 0x00000022#32, fun w => .smul (pregAt w 8) (xregAt w 12) (pregAt w 16)⟩,
    ⟨"LDG",      0xFFFFFCFF#32, 0x00000023#32, fun w => .ldg (pregAt w 8)⟩,
    ⟨"PSER",     0xFFFFCFFF#32, 0x00000024#32, fun w => .pser (pregAt w 12)⟩,
    ⟨"K2ADDR",   0xFFFF0FFF#32, 0x00000030#32, fun w => .k2addr (xregAt w 12)⟩ ]

/-- Whether a word is the command of a row (R85, R86). -/
def OpcodeRow.accepts (r : OpcodeRow) (w : CmdWord) : Bool := w &&& r.mask == r.pattern

/-- The decode procedure (R86): find the row that the word matches; if there is none the word is illegal. -/
def decode (w : CmdWord) : Except DecodeError Instr :=
  match opcodeTable.find? (fun r => r.accepts w) with
  | some r => .ok (r.build w)
  | none => .error (.illegalCommand w)

/-- A word from its fields (R81); bits 31:24 are zero in every command. -/
def packFields (opcode : BitVec 8) (a b c d : BitVec 4) : CmdWord :=
  0#8 ++ d ++ c ++ b ++ a ++ opcode

/-- The 4-bit field of a general register (R84). -/
def xfield (r : XReg) : BitVec 4 := BitVec.ofNat 4 r.val

/-- The 4-bit field of a point register (R84). -/
def pfield (r : PReg) : BitVec 4 := BitVec.ofNat 4 r.val

/-- The 4-bit field of a constant selector (R83). -/
def CurveConst.field : CurveConst → BitVec 4
  | .p => 0
  | .n => 1
  | .gx => 2
  | .gy => 3

/-- The word of an instruction, by the formats of R82 and the opcodes of R85. -/
def encode : Instr → CmdWord
  | .kinit => packFields 0x01 0 0 0 0
  | .kf => packFields 0x02 0 0 0 0
  | .kpad => packFields 0x03 0 0 0 0
  | .kabsorb imm16 => 0#8 ++ imm16 ++ 0x04#8
  | .ksqueeze => packFields 0x05 0 0 0 0
  | .khash => packFields 0x06 0 0 0 0
  | .modmul rd rs1 rs2 rm => packFields 0x10 (xfield rd) (xfield rs1) (xfield rs2) (xfield rm)
  | .modpow rd rs1 rs2 rm => packFields 0x11 (xfield rd) (xfield rs1) (xfield rs2) (xfield rm)
  | .modinv rd rs1 rm => packFields 0x12 (xfield rd) (xfield rs1) 0 (xfield rm)
  | .ldc rd c => packFields 0x13 (xfield rd) c.field 0 0
  | .padd pd pa pb => packFields 0x20 (pfield pd) (pfield pa) (pfield pb) 0
  | .pdbl pd pa => packFields 0x21 (pfield pd) (pfield pa) 0 0
  | .smul pd rk pa => packFields 0x22 (pfield pd) (xfield rk) (pfield pa) 0
  | .ldg pd => packFields 0x23 (pfield pd) 0 0 0
  | .pser pa => packFields 0x24 0 (pfield pa) 0 0
  | .k2addr rk => packFields 0x30 0 (xfield rk) 0 0

/-- The instruction the decoder reads from the bits `w` of an `nbits`-bit row: every bit from `nbits` on is 0, and a
command word has 32 bits (R80), the bits 63:32 of the data written to `CMD` being ignored (R30, R58). -/
def decodeTableWord (nbits w : Nat) : Option Instr :=
  match decode (BitVec.ofNat 32 (w % 2 ^ nbits)) with
  | .ok i => some i
  | .error _ => none

end Sys2Proof
end

