-- ==== Sys2Proof/Config.lean ====
section
/-! DEFINITION. The numeric parameters of the block (spec/00_scope.md R6, R8). The open parameter NBLK is not here:
each state carries its own (notes/assumptions/2.md), so that a statement about every state holds for every NBLK. -/

namespace Sys2Proof.Config

/-- RATE_BYTES (R6): the rate of the sponge, and the size of one block of the message buffer. -/
abbrev rateBytes : Nat := 136

/-- RATE_LANES (R6). -/
abbrev rateLanes : Nat := 17

/-- PAD_FIRST (R6). -/
abbrev padFirst : Byte := 0x01#8

/-- PAD_LAST (R6). -/
abbrev padLast : Byte := 0x80#8

/-- PUBKEY_BYTES (R6). -/
abbrev pubkeyBytes : Nat := 64

/-- NBLK ranges over 1 to 65536 (R8); a state holds NBLK - 1, a number below this bound. -/
abbrev nblkBound : Nat := 65536

/-- DESIGN CHOICE (notes/assumptions/2.md), unsafe: the NBLK - 1 that `State.reset` carries, that is NBLK = 2,
the value the spec's fault vectors use unless they say otherwise (spec/95_test_vectors.md V13). -/
abbrev resetNblkPred : Fin nblkBound := 1

end Sys2Proof.Config
end

