-- ==== Sys2Proof/Machine/State.lean ====
section
/-! DEFINITION. The state of the block (spec/10_state.md R21 to R34), the host's side of the bus as data, and the reasons a
step can stop. -/

namespace Sys2Proof.Machine

/-- The Keccak state: exactly 25 lanes (R22, R36 a). -/
abbrev Lanes := Vector Lane 25

/-- A point register (R24): three independent fields. -/
structure PointReg where
  inf : Bool
  x : XWord
  y : XWord
deriving DecidableEq, Repr

/-- A point value (R13, R24): the identity or a pair of stored 256-bit integers. -/
inductive Point where
  | inf
  | pt (x y : XWord)
deriving DecidableEq, Repr

/-- The message buffer as (address, byte) pairs (R25); what an unlisted address reads as is `Memory.unlisted`. -/
abbrev Memory := List Host.Cell

/-- The causes of a fault of the block (R201). -/
inductive FaultCause where
  /-- code 1: the word matches no row of the opcode map (R86) -/
  | illegalCommand
  /-- code 2: the message or the block does not fit the buffer (R122, R123, R127) -/
  | bufferOverflow
  /-- code 3: modulus 0, or for MODINV 0 or 1 (R143, R144, R146) -/
  | modulusRange
  /-- code 4: the identity reaches serialisation (R181, R183) -/
  | identityOperand
deriving DecidableEq, Repr

/-- The contents that a reset leaves in the state whose reset value is unspecified (R34: "a draw at reset"). The cells
of `BUF` may come in any order; those outside the buffer are left out when they are stored. -/
structure ResetDraw where
  S : Lanes
  x : Vector XWord 16
  P : Vector PointReg 4
  DIG : Vector Byte 32
  BUF : List Host.Cell
deriving DecidableEq, Repr

/-- What the outside does to the block (R51, R52, R230): a bus access of `width` bits at byte offset `off`, or the reset
input with the draw it makes. -/
inductive HostEvent where
  | read (width off : Nat)
  | write (width off : Nat) (data : Lane)
  | reset (draw : ResetDraw)
deriving DecidableEq, Repr

/-- What the bus answers (R51). -/
inductive BusReply where
  | ok
  | data (v : Lane)
  | busError
deriving DecidableEq, Repr

/-- The state. The first ten fields are the spec's (R21); the last three are the model's own: the open parameter NBLK
(notes/assumptions/2.md) and the host's side of the bus (notes/assumptions/1.md). -/
structure State where
  /-- the Keccak lanes (R22) -/
  S : Lanes
  /-- the general registers (R23) -/
  x : Vector XWord 16
  /-- the point registers (R24) -/
  P : Vector PointReg 4
  /-- the message buffer (R25) -/
  BUF : Memory
  /-- the message length (R26) -/
  MLEN : Lane
  /-- the padded length (R26) -/
  PLEN : Lane
  /-- the digest (R27) -/
  DIG : Vector Byte 32
  /-- the status register (R29), read through the accessors of Flags.lean -/
  STATUS : Lane
  /-- NBLK - 1 (R8); no step changes it -/
  nblkPred : Fin Config.nblkBound
  /-- the host events still to come, next first (R28, R52) -/
  pending : List HostEvent
  /-- what the bus has answered, newest first (R51) -/
  replies : List BusReply
deriving DecidableEq, Repr

/-- Why a step could stop with a fault: never. The block has no behaviour that stops it (R235, R243, and
93_implementation_defined.md section 1: nothing is `stuck`); its own faults are recorded in STATUS and the machine goes on
(R203). So this type has no constructor. -/
inductive Fault where
deriving DecidableEq, Repr

/-- Why a step could refuse. -/
inductive Refusal where
  /-- raised by an arm of `exec` whose instruction has no meaning yet: safe (the model stops); no arm does. -/
  | notModelled (mnemonic : String)
deriving DecidableEq, Repr

/-- The outcome of a meaning or a step. -/
abbrev Result := Host.Outcome State Fault Refusal

/-- The block right after reset (R34, R230). STATUS, MLEN and PLEN are 0 as the spec says. DESIGN CHOICE, unsafe
(notes/assumptions/3.md and 4.md): the unspecified data state is all zero here. DESIGN CHOICE, unsafe
(notes/assumptions/2.md): NBLK is 2. No host event is pending (notes/assumptions/1.md). -/
def State.reset : State :=
  { S := Vector.replicate 25 0
    x := Vector.replicate 16 0
    P := Vector.replicate 4 { inf := false, x := 0, y := 0 }
    BUF := []
    MLEN := 0
    PLEN := 0
    DIG := Vector.replicate 32 0
    STATUS := 0
    nblkPred := Config.resetNblkPred
    pending := []
    replies := [] }

end Sys2Proof.Machine
end

