-- ==== Sys2Proof/Machine/Flags.lean ====
section
/-! DEFINITION. The fields of STATUS and the word a fault records (spec/10_state.md R29, spec/60_exceptions.md R201, R203).
The block has no condition codes (R31): no command computes a flag, and the only one-bit state beside STATUS.FAULT is the
`inf` field of a point register, which is data. -/

namespace Sys2Proof.Machine

/-- The code of a cause, as STATUS.CAUSE holds it (R201). -/
def FaultCause.code : FaultCause → BitVec 8
  | .illegalCommand => 1
  | .bufferOverflow => 2
  | .modulusRange => 3
  | .identityOperand => 4

/-- STATUS after a fault of cause `c` of the word `w` (R29, R203): FINFO 63:32, reserved 31:16, CAUSE 15:8, reserved 7:1,
FAULT bit 0. -/
def statusWord (c : FaultCause) (w : CmdWord) : Lane :=
  w ++ (0#16 ++ (c.code ++ (0#7 ++ 1#1)))

/-- STATUS.FAULT (R29). -/
def State.faulted (s : State) : Bool := s.STATUS.getLsbD 0

/-- STATUS.CAUSE (R29). -/
def State.cause (s : State) : BitVec 8 := s.STATUS.extractLsb' 8 8

/-- STATUS.FINFO (R29). -/
def State.finfo (s : State) : CmdWord := s.STATUS.extractLsb' 32 32

end Sys2Proof.Machine
end

