-- ==== Sys2Proof/Machine/Ops.lean ====
section
/-! DEFINITION. The named operations: byte-order and lane helpers (spec/00_scope.md R10, R12), the message buffer (R13,
R25), the updates of each part of the state, taking a fault (R203), clearing it (R205) and reset (R230). -/

namespace Sys2Proof.Machine

/-! ### Bits and bytes -/

/-- Circular rotation left of a lane by `0 ≤ r ≤ 63` (R10); for `r = 0` the right shift by 64 gives 0 (U2). -/
def rotl64 (v : Lane) (r : Nat) : Lane := (v <<< r) ||| (v >>> (64 - r))

/-- `le64` of the eight bytes of `bs` from index `i` on: the first byte least significant (R12). -/
def le64 (bs : List Byte) (i : Nat) : Lane :=
  bs.getD (i + 7) 0 ++ bs.getD (i + 6) 0 ++ bs.getD (i + 5) 0 ++ bs.getD (i + 4) 0
    ++ bs.getD (i + 3) 0 ++ bs.getD (i + 2) 0 ++ bs.getD (i + 1) 0 ++ bs.getD i 0

/-- Byte `k` of `le64_bytes v`: bits `8k+7 : 8k` (R12). -/
def le64Byte (v : Lane) (k : Nat) : Byte := v.extractLsb' (8 * k) 8

/-- `le64_bytes` (R12). -/
def le64Bytes (v : Lane) : List Byte := (List.range 8).map (le64Byte v)

/-- Byte `i` of `be256_bytes v`: bits `8(31-i)+7 : 8(31-i)` (R12). -/
def be256Byte (v : XWord) (i : Nat) : Byte := v.extractLsb' (8 * (31 - i)) 8

/-- `be256_bytes` (R12): byte 0 holds the most significant 8 bits. -/
def be256Bytes (v : XWord) : List Byte := (List.range 32).map (be256Byte v)

/-- `bitlen` (R9): the number of bits of the shortest binary representation. -/
def bitlen (k : Nat) : Nat := if k = 0 then 0 else Nat.log2 k + 1

/-- Word `w` of a 256-bit value: bits `64w+63 : 64w` (R55). -/
def getDword (v : XWord) (w : Nat) : Lane := v.extractLsb' (64 * w) 64

/-- A 256-bit value with its word `w` replaced and the other three unchanged (R55). -/
def setDword (v : XWord) (w : Nat) (d : Lane) : XWord :=
  (if w = 3 then d else getDword v 3) ++ (if w = 2 then d else getDword v 2)
    ++ (if w = 1 then d else getDword v 1) ++ (if w = 0 then d else getDword v 0)

/-! ### The message buffer -/

/-- DESIGN CHOICE, unsafe (notes/assumptions/4.md): what a byte of the buffer that nothing has written reads as. -/
def Memory.unlisted : Byte := 0#8

/-- Read byte `a` (R13 `BUF[a]`). -/
def Memory.read : Memory → Nat → Byte
  | [], _ => Memory.unlisted
  | (b, v) :: m, a => if b = a then v else Memory.read m a

/-- Write byte `a` (R13 `BUF[a] <- v`), keeping the canonical form. -/
def Memory.write : Memory → Nat → Byte → Memory
  | [], a, v => if v = Memory.unlisted then [] else [(a, v)]
  | (b, w) :: m, a, v =>
    if a < b then (if v = Memory.unlisted then (b, w) :: m else (a, v) :: (b, w) :: m)
    else if a = b then (if v = Memory.unlisted then m else (a, v) :: m)
    else (b, w) :: Memory.write m a v

/-- The canonical form: addresses strictly rising, and no entry equal to what an unlisted address reads as. -/
abbrev Memory.wf (m : Memory) : Prop :=
  m.Pairwise (fun c d => c.1 < d.1) ∧ ∀ c ∈ m, c.2 ≠ Memory.unlisted

/-- Every listed address is below `cap` (R25: the buffer has BUF_CAP bytes). -/
abbrev Memory.below (cap : Nat) (m : Memory) : Prop := ∀ c ∈ m, c.1 < cap

/-- `MemRead(addr, n)` (R13). -/
def Memory.readBytes (m : Memory) (addr n : Nat) : List Byte :=
  (List.range n).map (fun k => m.read (addr + k))

/-- `MemWrite(addr, n, bytes)` (R13), the bytes in rising order. -/
def Memory.writeBytes : Memory → Nat → List Byte → Memory
  | m, _, [] => m
  | m, addr, b :: bs => Memory.writeBytes (m.write addr b) (addr + 1) bs

/-- The buffer with the given cells stored in turn, those at or above `cap` left out. -/
def Memory.ofCells (cap : Nat) : List Host.Cell → Memory → Memory
  | [], m => m
  | (a, v) :: cs, m => Memory.ofCells cap cs (if a < cap then m.write a v else m)

/-! ### The parts of the state -/

/-- NBLK (R8): between 1 and 65536. -/
def State.nblk (s : State) : Nat := s.nblkPred.val + 1

/-- BUF_CAP (R8, R25). -/
def State.bufCap (s : State) : Nat := Config.rateBytes * s.nblk

/-- `S <- v` -/
def State.setS (s : State) (v : Lanes) : State := { s with S := v }
/-- `x[r] <- v` -/
def State.setX (s : State) (r : XReg) (v : XWord) : State := { s with x := s.x.set r v }
/-- the three fields of `P[j]` at once -/
def State.setP (s : State) (j : PReg) (v : PointReg) : State := { s with P := s.P.set j v }
/-- the buffer replaced -/
def State.setBUF (s : State) (m : Memory) : State := { s with BUF := m }
/-- `MLEN <- v` -/
def State.setMLEN (s : State) (v : Lane) : State := { s with MLEN := v }
/-- `PLEN <- v` -/
def State.setPLEN (s : State) (v : Lane) : State := { s with PLEN := v }
/-- `DIG[0..31] <- v` -/
def State.setDIG (s : State) (v : Vector Byte 32) : State := { s with DIG := v }
/-- `STATUS <- v` -/
def State.setSTATUS (s : State) (v : Lane) : State := { s with STATUS := v }
/-- the host's remaining events -/
def State.setPending (s : State) (es : List HostEvent) : State := { s with pending := es }
/-- one more answer of the bus -/
def State.pushReply (s : State) (r : BusReply) : State := { s with replies := r :: s.replies }

/-! ### Faults and reset -/

/-- Fault entry, `raise` (R203): STATUS records FAULT, the cause and the command word, and nothing else changes. -/
def State.raise (s : State) (c : FaultCause) (w : CmdWord) : State := s.setSTATUS (statusWord c w)

/-- Return from a fault (R205, R30): STATUS <- 0, all fields. -/
def State.clearFault (s : State) : State := s.setSTATUS 0

/-- The reset event (R230, R34): STATUS, MLEN and PLEN are 0 and the rest of the block's state is whatever the draw holds.
NBLK and the host's side of the bus are not the block's state (notes/assumptions/5.md). -/
def State.resetBy (s : State) (d : ResetDraw) : State :=
  { s with
    S := d.S, x := d.x, P := d.P, DIG := d.DIG
    BUF := Memory.ofCells s.bufCap d.BUF []
    MLEN := 0, PLEN := 0, STATUS := 0 }

end Sys2Proof.Machine
end

