-- ==== Sys2Proof/Machine/Rom.lean ====
section
/-! DEFINITION. The constant ROM (spec/10_state.md R32): immutable, not state, not in the address map. -/

namespace Sys2Proof.Machine

/-- Round constants `RC[0..23]` (R101). -/
def RC : Vector Lane 24 := #v[
  0x0000000000000001#64, 0x0000000000008082#64, 0x800000000000808A#64, 0x8000000080008000#64,
  0x000000000000808B#64, 0x0000000080000001#64, 0x8000000080008081#64, 0x8000000000008009#64,
  0x000000000000008A#64, 0x0000000000000088#64, 0x0000000080008009#64, 0x000000008000000A#64,
  0x000000008000808B#64, 0x800000000000008B#64, 0x8000000000008089#64, 0x8000000000008003#64,
  0x8000000000008002#64, 0x8000000000000080#64, 0x000000000000800A#64, 0x800000008000000A#64,
  0x8000000080008081#64, 0x8000000000008080#64, 0x0000000080000001#64, 0x8000000080008008#64]

/-- Rotation amounts `RHO[0..24]`, indexed by the position before the move (R102). -/
def RHO : Vector Nat 25 := #v[
  0, 1, 62, 28, 27,
  36, 44, 6, 55, 20,
  3, 10, 43, 25, 39,
  41, 45, 15, 21, 8,
  18, 2, 61, 56, 14]

/-- Position table `PI[0..24]`: the lane at position `i` moves to `PI[i]` (R103). -/
def PI : Vector (Fin 25) 25 := #v[
  0, 10, 20, 5, 15, 16, 1, 11, 21, 6, 7, 17, 2, 12, 22, 23, 8, 18, 3, 13, 14, 24, 9, 19, 4]

/-- The inverse of `PI`: the position each destination's lane comes from (R103). -/
def PIINV : Vector (Fin 25) 25 := #v[
  0, 6, 12, 18, 24, 3, 9, 10, 16, 22, 1, 7, 13, 19, 20, 4, 5, 11, 17, 23, 2, 8, 14, 15, 21]

/-- The field prime `p` (R140). -/
def fieldPrime : XWord := 0xFFFFFFFFFFFFFFFFFFFFFFFFFFFFFFFFFFFFFFFFFFFFFFFFFFFFFFFEFFFFFC2F#256

/-- The order `n` of the generator (R140). -/
def groupOrder : XWord := 0xFFFFFFFFFFFFFFFFFFFFFFFFFFFFFFFEBAAEDCE6AF48A03BBFD25E8CD0364141#256

/-- The generator's x coordinate (R140). -/
def genX : XWord := 0x79BE667EF9DCBBAC55A06295CE870B07029BFCDB2DCE28D959F2815B16F81798#256

/-- The generator's y coordinate (R140). -/
def genY : XWord := 0x483ADA7726A3C4655DA4FBFC0E1108A8FD17B448A68554199C47D08FFB10D4B8#256

/-- The constant a selector of `LDC` names (R147: `[p, n, Gx, Gy][cidx]`). -/
def romConst : CurveConst → XWord
  | .p => fieldPrime
  | .n => groupOrder
  | .gx => genX
  | .gy => genY

end Sys2Proof.Machine
end

