-- ==== Sys2Proof/Machine/Operands.lean ====
section
/-! DEFINITION. Every operand form of the commands (spec/30_encoding.md R82, R83): a general register, a point register as
a point value, and the message buffer's implicit operands. -/

namespace Sys2Proof.Machine

/-- `x[r]` as an operand (R13). No register is hard-wired (R23). -/
def State.readX (s : State) (r : XReg) : XWord := s.x[r]

/-- `x[r] <- v` for a result computed on the integers, which is below `2^256` (R141). -/
def State.writeX (s : State) (r : XReg) (v : Nat) : State := s.setX r (BitVec.ofNat 256 v)

/-- The point value a point register holds (R24): `x` and `y` are ignored when `inf = 1`. -/
def PointReg.value (r : PointReg) : Point := if r.inf then .inf else .pt r.x r.y

/-- How a command stores a point value (R24): the identity as `inf = 1, x = 0, y = 0`. -/
def Point.stored : Point → PointReg
  | .inf => { inf := true, x := 0, y := 0 }
  | .pt a b => { inf := false, x := a, y := b }

/-- `P[j]` as an operand (R13). -/
def State.readPoint (s : State) (j : PReg) : Point := s.P[j].value

/-- `P[j] <- pt` by a command (R13, R24). -/
def State.writePoint (s : State) (j : PReg) (pt : Point) : State := s.setP j pt.stored

/-- The generator as a point value (R167). -/
def generator : Point := .pt genX genY

/-- `PL = 136 * (MLEN div 136 + 1)` on the integers, with no 64-bit wrap (R122, R127). -/
def State.paddedLen (s : State) : Nat := Config.rateBytes * (s.MLEN.toNat / Config.rateBytes + 1)

/-- The message `BUF[0..MLEN-1]` (R25, R127). -/
def State.message (s : State) : List Byte := s.BUF.readBytes 0 s.MLEN.toNat

end Sys2Proof.Machine
end

