-- ==== Sys2Proof/Machine/Field.lean ====
section
/-! DEFINITION. Modular arithmetic: MODMUL, MODPOW, MODINV, LDC (spec/42_field_arithmetic.md R140 to R149). Operands are
read as natural numbers and every result is computed exactly before it is written back (R11, R141). -/

namespace Sys2Proof.Machine

/-- `mulmod` (R141): the full product, then the reduction. -/
def mulmod (a b m : Nat) : Nat := a * b % m

/-- The loop of `modpow` (R142): `fuel` bounds the number of iterations. -/
def modpowLoop (m : Nat) : Nat → Nat → Nat → Nat → Nat
  | 0, result, _, _ => result
  | fuel + 1, result, base, e =>
    if e = 0 then result
    else modpowLoop m fuel (if e % 2 = 1 then result * base % m else result) (base * base % m) (e / 2)

/-- `modpow` (R142): the loop runs `bitlen(e)` times. -/
def modpow (b e m : Nat) : Nat := modpowLoop m (bitlen e) (1 % m) (b % m) e

/-- `modinv` (R145): the Fermat formula for every input. -/
def modinv (a m : Nat) : Nat := modpow a (m - 2) m

/-- `MODMUL rd, rs1, rs2, rm` (R143). -/
def execModmul (rd rs1 rs2 rm : XReg) (s : State) : Result :=
  let A := (s.readX rs1).toNat
  let B := (s.readX rs2).toNat
  let M := (s.readX rm).toNat
  if M = 0 then .next (s.raise .modulusRange (encode (.modmul rd rs1 rs2 rm)))
  else .next (s.writeX rd (mulmod A B M))

/-- `MODPOW rd, rs1, rs2, rm` (R144). -/
def execModpow (rd rs1 rs2 rm : XReg) (s : State) : Result :=
  let B := (s.readX rs1).toNat
  let E := (s.readX rs2).toNat
  let M := (s.readX rm).toNat
  if M = 0 then .next (s.raise .modulusRange (encode (.modpow rd rs1 rs2 rm)))
  else .next (s.writeX rd (modpow B E M))

/-- `MODINV rd, rs1, rm` (R146). -/
def execModinv (rd rs1 rm : XReg) (s : State) : Result :=
  let A := (s.readX rs1).toNat
  let M := (s.readX rm).toNat
  if M < 2 then .next (s.raise .modulusRange (encode (.modinv rd rs1 rm)))
  else .next (s.writeX rd (modinv A M))

/-- `LDC rd, cidx` (R147). -/
def execLdc (rd : XReg) (c : CurveConst) (s : State) : Result := .next (s.setX rd (romConst c))

end Sys2Proof.Machine
end

