-- ==== Sys2Proof/Machine/Curve.lean ====
section
/-! DEFINITION. secp256k1 point arithmetic: PADD, PDBL, SMUL, LDG (spec/43_curve_points.md R160 to R170). Nothing is
checked: the formulas are applied as written to whatever the registers hold (R169). -/

namespace Sys2Proof.Machine

/-- The field prime as an integer. -/
def pInt : Int := (fieldPrime.toNat : Int)

/-- `v mod p` in the mathematical sense: in `[0, p)` whatever the sign of `v` (R11, R160). -/
def modP (v : Int) : Nat := (v % pInt).toNat

/-- `inv_p` (R160): the Fermat formula, whose first step reduces its argument (R142). -/
def invP (v : Int) : Nat := modinv (modP v) fieldPrime.toNat

/-- The point with a given slope through `(x1, y1)` and a second `x2` (R161, the last three lines). -/
def slopePoint (sl x1 y1 x2 : Int) : Point :=
  let x3 := modP (sl * sl - x1 - x2)
  let y3 := modP (sl * (x1 - x3) - y1)
  .pt (BitVec.ofNat 256 x3) (BitVec.ofNat 256 y3)

/-- `padd` (R161). Equality of points is equality of the stored 256-bit values; there is no branch for opposite points. -/
def padd : Point → Point → Point
  | .inf, Q => Q
  | .pt x1 y1, .inf => .pt x1 y1
  | .pt x1 y1, .pt x2 y2 =>
    let X1 : Int := x1.toNat
    let Y1 : Int := y1.toNat
    let X2 : Int := x2.toNat
    let Y2 : Int := y2.toNat
    if x1 = x2 ∧ y1 = y2 then slopePoint (modP (3 * X1 * X1 * invP (2 * Y1))) X1 Y1 X2
    else slopePoint (modP ((Y2 - Y1) * invP (X2 - X1))) X1 Y1 X2

/-- One iteration of `smul` for bit `i` of `k` (R162): `RA` holds the accumulator and the doubled addend. -/
def smulStep (k : Nat) (RA : Point × Point) (i : Nat) : Point × Point :=
  (if k.testBit i then padd RA.1 RA.2 else RA.1, padd RA.2 RA.2)

/-- `smul` (R162): double-and-add from bit 0 up to the highest set bit, starting from the identity. -/
def smul (k : Nat) (P : Point) : Point := ((List.range (bitlen k)).foldl (smulStep k) (.inf, P)).1

/-- `PADD Pd, Pa, Pb` (R163). -/
def execPadd (pd pa pb : PReg) (s : State) : Result :=
  .next (s.writePoint pd (padd (s.readPoint pa) (s.readPoint pb)))

/-- `PDBL Pd, Pa` (R164). -/
def execPdbl (pd pa : PReg) (s : State) : Result :=
  .next (s.writePoint pd (padd (s.readPoint pa) (s.readPoint pa)))

/-- `SMUL Pd, xk, Pa` (R165): no scalar faults and none is reduced (R166). -/
def execSmul (pd : PReg) (rk : XReg) (pa : PReg) (s : State) : Result :=
  .next (s.writePoint pd (smul (s.readX rk).toNat (s.readPoint pa)))

/-- `LDG Pd` (R167). -/
def execLdg (pd : PReg) (s : State) : Result := .next (s.writePoint pd generator)

end Sys2Proof.Machine
end

