-- ==== Sys2Proof/Machine/Keccak.lean ====
section
/-! DEFINITION. The Keccak-f[1600] permutation and the commands KINIT and KF (spec/40_keccak_permutation.md R100 to R111). -/

namespace Sys2Proof.Machine

/-- Column parities `C[x]` (R104). -/
def columnParity (A : Lanes) : Vector Lane 5 :=
  Vector.ofFn fun x => A[x.val] ^^^ A[x.val + 5] ^^^ A[x.val + 10] ^^^ A[x.val + 15] ^^^ A[x.val + 20]

/-- `D[x] = C[(x+4) mod 5] xor rotl64(C[(x+1) mod 5], 1)` (R104). -/
def thetaD (C : Vector Lane 5) : Vector Lane 5 :=
  Vector.ofFn fun x =>
    C[(x.val + 4) % 5]'(Nat.mod_lt _ (by decide)) ^^^ rotl64 (C[(x.val + 1) % 5]'(Nat.mod_lt _ (by decide))) 1

/-- θ (R104). -/
def theta (A : Lanes) : Lanes :=
  let D := thetaD (columnParity A)
  Vector.ofFn fun i => A[i] ^^^ D[i.val % 5]'(Nat.mod_lt _ (by decide))

/-- ρ and π as one step (R105), in the gathering form that R105 gives as equivalent: position `j` receives the lane from
`PIINV[j]`, rotated by that position's amount (notes/assumptions/7.md). -/
def rhopi (A : Lanes) : Lanes :=
  Vector.ofFn fun j => rotl64 A[PIINV[j]] RHO[PIINV[j]]

/-- A position in the row of `i` is a position of the state (R100). -/
theorem rowPos_lt {i k : Nat} (h : i < 25) : 5 * (i / 5) + k % 5 < 25 := by omega

/-- χ (R106): the neighbours are taken in the lane's own row. -/
def chi (T : Lanes) : Lanes :=
  Vector.ofFn fun i =>
    T[i] ^^^ ((~~~ T[5 * (i.val / 5) + (i.val % 5 + 1) % 5]'(rowPos_lt i.isLt))
      &&& T[5 * (i.val / 5) + (i.val % 5 + 2) % 5]'(rowPos_lt i.isLt))

/-- ι (R107): the round constant into lane 0 only. -/
def iota (A : Lanes) (r : Fin 24) : Lanes := A.set 0 (A[0] ^^^ RC[r])

/-- One round (R108). -/
def keccakRound (A : Lanes) (r : Fin 24) : Lanes := iota (chi (rhopi (theta A))) r

/-- `keccak_f` (R108): rounds 0 to 23 in ascending order. -/
def keccakF (A : Lanes) : Lanes := (List.finRange 24).foldl keccakRound A

/-- The state with all 25 lanes zero (R109, R126). -/
def zeroLanes : Lanes := Vector.replicate 25 0

/-- The state changes of KINIT (R109), also made by KHASH (R127). -/
def State.doKinit (s : State) : State := s.setS zeroLanes

/-- `KINIT` (R109). -/
def execKinit (s : State) : Result := .next s.doKinit

/-- `KF` (R110). -/
def execKf (s : State) : Result := .next (s.setS (keccakF s.S))

end Sys2Proof.Machine
end

