-- ==== Sys2Proof/Machine/Sponge.lean ====
section
/-! DEFINITION. The Keccak-256 pad-absorb-squeeze pipeline: KPAD, KABSORB, KSQUEEZE, KHASH (spec/41_keccak_sponge.md R120
to R129). -/

namespace Sys2Proof.Machine

/-! ### Functions on byte sequences -/

/-- `pad(M)` (R120): append 0x01, fill with zeros to a multiple of 136, OR 0x80 into the last byte. -/
def pad (M : List Byte) : List Byte :=
  let L := M.length
  let PL := Config.rateBytes * (L / Config.rateBytes + 1)
  let B := M ++ [Config.padFirst] ++ List.replicate (PL - L - 1) 0#8
  B.set (PL - 1) (B.getD (PL - 1) 0 ||| Config.padLast)

/-- The XOR half of `absorb_block` (R121): lanes 0 to 16 take the block's little-endian lanes, 17 to 24 stay. -/
def xorBlock (A : Lanes) (blk : List Byte) : Lanes :=
  Vector.ofFn fun j => if j.val < Config.rateLanes then A[j] ^^^ le64 blk (8 * j.val) else A[j]

/-- `absorb_block` (R121). -/
def absorbBlock (A : Lanes) (blk : List Byte) : Lanes := keccakF (xorBlock A blk)

/-- A lane of the first four that digest byte `d` comes from is a lane of the state. -/
theorem digestLane_lt (d : Fin 32) : d.val / 8 < 25 := by omega

/-- `squeeze` (R124): digest byte `8j + k` is bits `8k+7 : 8k` of lane `j`. -/
def squeeze (A : Lanes) : Vector Byte 32 :=
  Vector.ofFn fun d => le64Byte (A[d.val / 8]'(digestLane_lt d)) (d.val % 8)

/-- Block `k` of a padded byte sequence (R126: `B[136k .. 136k+135]`). -/
def blockOf (B : List Byte) (k : Nat) : List Byte := (B.drop (Config.rateBytes * k)).take Config.rateBytes

/-- `keccak256` (R126). -/
def keccak256 (M : List Byte) : Vector Byte 32 :=
  let B := pad M
  squeeze ((List.range (B.length / Config.rateBytes)).foldl (fun A k => absorbBlock A (blockOf B k)) zeroLanes)

/-! ### The state changes of the commands, once their check has passed -/

/-- The state changes of KPAD (R122): pad in place, record the padded length. -/
def State.doKpad (s : State) : State :=
  let L := s.MLEN.toNat
  let PL := s.paddedLen
  let m := (s.BUF.write L Config.padFirst).writeBytes (L + 1) (List.replicate (PL - L - 1) 0#8)
  (s.setBUF (m.write (PL - 1) (m.read (PL - 1) ||| Config.padLast))).setPLEN (BitVec.ofNat 64 PL)

/-- The state changes of KABSORB for block `b` (R123). -/
def State.doKabsorb (s : State) (b : Nat) : State :=
  s.setS (absorbBlock s.S (s.BUF.readBytes (Config.rateBytes * b) Config.rateBytes))

/-- The state changes of KSQUEEZE (R125). -/
def State.doKsqueeze (s : State) : State := s.setDIG (squeeze s.S)

/-- Absorb the first `n` blocks of the buffer in order (R127). -/
def State.absorbBlocks (s : State) (n : Nat) : State :=
  (List.range n).foldl (fun t k => t.doKabsorb k) s

/-- The state changes of KHASH (R127): do KINIT, KPAD, KABSORB of every block, KSQUEEZE. -/
def State.doKhash (s : State) : State :=
  (s.doKinit.doKpad.absorbBlocks (s.paddedLen / Config.rateBytes)).doKsqueeze

/-! ### The commands -/

/-- `KPAD` (R122). -/
def execKpad (s : State) : Result :=
  if s.paddedLen > s.bufCap then .next (s.raise .bufferOverflow (encode .kpad)) else .next s.doKpad

/-- `KABSORB imm16` (R123). It looks at neither MLEN nor PLEN. -/
def execKabsorb (imm16 : BitVec 16) (s : State) : Result :=
  if Config.rateBytes * (imm16.toNat + 1) > s.bufCap then .next (s.raise .bufferOverflow (encode (.kabsorb imm16)))
  else .next (s.doKabsorb imm16.toNat)

/-- `KSQUEEZE` (R125). -/
def execKsqueeze (s : State) : Result := .next s.doKsqueeze

/-- `KHASH` (R127): the check stands before anything is changed. -/
def execKhash (s : State) : Result :=
  if s.paddedLen > s.bufCap then .next (s.raise .bufferOverflow (encode .khash)) else .next s.doKhash

end Sys2Proof.Machine
end

