-- ==== Sys2Proof/Machine/Pipeline.lean ====
section
/-! DEFINITION. The key-to-address pipeline: PSER, K2ADDR (spec/44_derivation_pipeline.md R180 to R184). -/

namespace Sys2Proof.Machine

/-- `ser(Pt(x, y))` (R180): 64 bytes, `x` then `y`, each big-endian, as stored. -/
def ser (x y : XWord) : List Byte := be256Bytes x ++ be256Bytes y

/-- `MemWrite(0, 64, ser(Pt(x, y))); MLEN <- 64` (R181, R183). -/
def State.doSerialise (s : State) (x y : XWord) : State :=
  (s.setBUF (s.BUF.writeBytes 0 (ser x y))).setMLEN (BitVec.ofNat 64 Config.pubkeyBytes)

/-- `PSER Pa` (R181). -/
def execPser (pa : PReg) (s : State) : Result :=
  match s.readPoint pa with
  | .inf => .next (s.raise .identityOperand (encode (.pser pa)))
  | .pt x y => .next (s.doSerialise x y)

/-- `k2addr(k)` (R182): the 20 bytes 12 to 31 of the digest; none for a key whose multiple is the identity. -/
def k2addr (k : Nat) : Option (List Byte) :=
  match smul k generator with
  | .inf => none
  | .pt x y => some ((keccak256 (ser x y)).toList.drop 12)

/-- `K2ADDR xk` (R183): the only check stands before the first write; the public key is kept in no register. -/
def execK2addr (rk : XReg) (s : State) : Result :=
  match smul (s.readX rk).toNat generator with
  | .inf => .next (s.raise .identityOperand (encode (.k2addr rk)))
  | .pt x y => .next (s.doSerialise x y).doKhash

end Sys2Proof.Machine
end

