-- ==== Sys2Proof/Machine/Dispatch.lean ====
section
/-! DEFINITION. One arm per command (spec/30_encoding.md R85). -/

namespace Sys2Proof.Machine

def exec (i : Instr) (s : State) : Host.Outcome State Fault Refusal :=
  match i with
  | .kinit => Sys2Proof.Machine.execKinit s
  | .kf => Sys2Proof.Machine.execKf s
  | .kpad => Sys2Proof.Machine.execKpad s
  | .kabsorb imm16 => Sys2Proof.Machine.execKabsorb imm16 s
  | .ksqueeze => Sys2Proof.Machine.execKsqueeze s
  | .khash => Sys2Proof.Machine.execKhash s
  | .modmul rd rs1 rs2 rm => Sys2Proof.Machine.execModmul rd rs1 rs2 rm s
  | .modpow rd rs1 rs2 rm => Sys2Proof.Machine.execModpow rd rs1 rs2 rm s
  | .modinv rd rs1 rm => Sys2Proof.Machine.execModinv rd rs1 rm s
  | .ldc rd c => Sys2Proof.Machine.execLdc rd c s
  | .padd pd pa pb => Sys2Proof.Machine.execPadd pd pa pb s
  | .pdbl pd pa => Sys2Proof.Machine.execPdbl pd pa s
  | .smul pd rk pa => Sys2Proof.Machine.execSmul pd rk pa s
  | .ldg pd => Sys2Proof.Machine.execLdg pd s
  | .pser pa => Sys2Proof.Machine.execPser pa s
  | .k2addr rk => Sys2Proof.Machine.execK2addr rk s

end Sys2Proof.Machine
end

