-- ==== Sys2Proof/Machine/Bus.lean ====
section
/-! DEFINITION. The host interface (spec/20_memory.md R50 to R60): the register map, bus reads and writes, the CMD write
and the order of its checks (R58, R206), and what one host event does. -/

namespace Sys2Proof.Machine

/-- A mapped 64-bit location (R53, R55, R56, R57). -/
inductive Loc where
  | cmd
  | status
  | faultclr
  | mlen
  | plen
  | cap
  /-- word `j` of DIG -/
  | dig (j : Fin 4)
  /-- lane `S[i]` -/
  | lane (i : Fin 25)
  /-- word `w` of `x[r]` -/
  | xword (r : XReg) (w : Fin 4)
  /-- word `w` of `P[j].x` -/
  | pxword (j : PReg) (w : Fin 4)
  /-- word `w` of `P[j].y` -/
  | pyword (j : PReg) (w : Fin 4)
  /-- the word of `P[j].inf` -/
  | pinf (j : PReg)
  /-- the word of BUF bytes `8q` to `8q+7` -/
  | bufword (q : Nat)
deriving DecidableEq, Repr

/-- The locations of a point register, by the offset `o` from its base (R56): the last seven words are unmapped. -/
def locatePoint (j : PReg) (o : Nat) : Option Loc :=
  if o < 0x20 then some (.pxword j (Fin.ofNat 4 (o / 8)))
  else if o < 0x40 then some (.pyword j (Fin.ofNat 4 ((o - 0x20) / 8)))
  else if o = 0x40 then some (.pinf j)
  else none

/-- The address map (R53) for a buffer of `cap` bytes: none for a misaligned or unmapped offset (R59). -/
def locate (cap off : Nat) : Option Loc :=
  if off % 8 ≠ 0 then none
  else if off = 0x0000 then some .cmd
  else if off = 0x0008 then some .status
  else if off = 0x0010 then some .faultclr
  else if off = 0x0018 then some .mlen
  else if off = 0x0020 then some .plen
  else if off = 0x0028 then some .cap
  else if 0x0040 ≤ off ∧ off < 0x0060 then some (.dig (Fin.ofNat 4 ((off - 0x0040) / 8)))
  else if 0x0100 ≤ off ∧ off < 0x01C8 then some (.lane (Fin.ofNat 25 ((off - 0x0100) / 8)))
  else if 0x0200 ≤ off ∧ off < 0x0400 then
    some (.xword (Fin.ofNat 16 ((off - 0x0200) / 0x20)) (Fin.ofNat 4 ((off - 0x0200) % 0x20 / 8)))
  else if 0x0400 ≤ off ∧ off < 0x0600 then
    locatePoint (Fin.ofNat 4 ((off - 0x0400) / 0x80)) ((off - 0x0400) % 0x80)
  else if 0x1000 ≤ off ∧ off < 0x1000 + cap then some (.bufword ((off - 0x1000) / 8))
  else none

/-- The value a bus read of a location returns (R53 to R57); none where the host may not read (R59). -/
def State.readLoc (s : State) : Loc → Option Lane
  | .cmd => none
  | .status => some s.STATUS
  | .faultclr => none
  | .mlen => some s.MLEN
  | .plen => some s.PLEN
  | .cap => some (BitVec.ofNat 64 s.bufCap)
  | .dig j => some (le64 s.DIG.toList (8 * j.val))
  | .lane i => some s.S[i]
  | .xword r w => some (getDword s.x[r] w.val)
  | .pxword j w => some (getDword s.P[j].x w.val)
  | .pyword j w => some (getDword s.P[j].y w.val)
  | .pinf j => some (if s.P[j].inf then 1 else 0)
  | .bufword q => some (le64 (s.BUF.readBytes (8 * q) 8) 0)

/-- The answer to a bus read (R51, R59): 64 bits wide, aligned, mapped, readable, or BusError. -/
def State.busRead (s : State) (width off : Nat) : BusReply :=
  if width ≠ 64 then .busError
  else match locate s.bufCap off with
    | none => .busError
    | some l => match s.readLoc l with
      | none => .busError
      | some v => .data v

/-- The store that a bus write to a plain read-write location makes (R53, R55 to R57); none where the host may not write,
and for the two locations with side effects, which `State.busWrite` treats itself (R60). -/
def State.writeLoc (s : State) (d : Lane) : Loc → Option State
  | .cmd => none
  | .status => none
  | .faultclr => none
  | .mlen => some (s.setMLEN d)
  | .plen => none
  | .cap => none
  | .dig _ => none
  | .lane _ => none
  | .xword r w => some (s.setX r (setDword s.x[r] w.val d))
  | .pxword j w => some (s.setP j { s.P[j] with x := setDword s.P[j].x w.val d })
  | .pyword j w => some (s.setP j { s.P[j] with y := setDword s.P[j].y w.val d })
  | .pinf j => some (s.setP j { s.P[j] with inf := d.getLsbD 0 })
  | .bufword q => some (s.setBUF (s.BUF.writeBytes (8 * q) (le64Bytes d)))

/-- What the CMD write of word `w` does (R58), its checks in the order of R206: dropped while a fault is recorded (R204),
then decode (R86), then the command with its own operand check. -/
def State.runWord (s : State) (w : CmdWord) : Result :=
  if s.faulted then .next s
  else match decode w with
    | .error (.illegalCommand w') => .next (s.raise .illegalCommand w')
    | .ok i => exec i s

/-- The bus answers once the transaction is complete (R58). -/
def withReply (r : BusReply) : Result → Result
  | .next s => .next (s.pushReply r)
  | .fault f => .fault f
  | .refused e => .refused e

/-- A write to FAULTCLR (R30, R205): bit 0 = 1 clears STATUS, bits 63:1 are ignored. -/
def State.faultclrWrite (s : State) (d : Lane) : State := if d.getLsbD 0 then s.clearFault else s

/-- A bus write (R51, R58, R59). -/
def State.busWrite (s : State) (width off : Nat) (d : Lane) : Result :=
  if width ≠ 64 then .next (s.pushReply .busError)
  else match locate s.bufCap off with
    | none => .next (s.pushReply .busError)
    | some .cmd => withReply .ok (s.runWord (d.setWidth 32))
    | some .faultclr => .next ((s.faultclrWrite d).pushReply .ok)
    | some l => match s.writeLoc d l with
      | none => .next (s.pushReply .busError)
      | some t => .next (t.pushReply .ok)

/-- What one host event does to the block (R51, R52, R230). A reset gives the host no answer. -/
def State.hostEvent (s : State) : HostEvent → Result
  | .read width off => .next (s.pushReply (s.busRead width off))
  | .write width off d => s.busWrite width off d
  | .reset draw => .next (s.resetBy draw)

/-- One step: the next pending host event takes place; with none pending the block is at rest and keeps its state (R216,
R235). -/
def State.stepEvent (s : State) : Result :=
  match s.pending with
  | [] => .next s
  | e :: rest => (s.setPending rest).hostEvent e

/-- The state in which the very next host event is the CMD write of the low 32 bits of `w mod 2^nbits`, with no fault
recorded, so that the write is not dropped (R58, R204; notes/assumptions/6.md). -/
def State.withCommand (s : State) (nbits w : Nat) : State :=
  let t := if s.faulted then s.clearFault else s
  t.setPending (.write 64 0x0000 ((BitVec.ofNat 32 (w % 2 ^ nbits)).setWidth 64) :: s.pending)

end Sys2Proof.Machine
end

