-- ==== Sys2Proof/Machine/Step.lean ====
section
/-! DEFINITION. One step of the machine: the next host event (spec/10_state.md R20, R28; spec/20_memory.md R58, R65). -/

namespace Sys2Proof.Machine

/-- One step (R65: host transactions take effect one at a time, each completely before the next begins). -/
def step (s : State) : Host.Outcome State Fault Refusal := s.stepEvent

/-- The state whose next step runs the command word `w` (its bits from `nbits` on zero): the host's next transaction is
the CMD write of it (notes/assumptions/1.md and 6.md). -/
def State.withFetchWord (s : State) (nbits w : Nat) : State := s.withCommand nbits w

end Sys2Proof.Machine
end

