-- ==== Sys2Proof/Machine/Listing.lean ====
section
/-! DEFINITION. How the spec's listings are written (spec/30_encoding.md R84, R89, R92): the assembler's spelling of a
command, and the bus transactions a listing's `H:` lines stand for. The machine uses none of this. -/

namespace Sys2Proof

/-- `x0` to `x15` (R84, R89). -/
def xregName (r : XReg) : String := "x" ++ toString r.val

/-- `P0` to `P3` (R84, R89). -/
def pregName (j : PReg) : String := "P" ++ toString j.val

/-- The constant selector of LDC by name (R89). -/
def CurveConst.spelling : CurveConst → String
  | .p => "p"
  | .n => "n"
  | .gx => "gx"
  | .gy => "gy"

/-- One command as the assembler writes it (R89): the mnemonic in capitals, then the operands, destination first. -/
def Instr.spelling : Instr → String
  | .kinit => "KINIT"
  | .kf => "KF"
  | .kpad => "KPAD"
  | .kabsorb imm16 => "KABSORB " ++ toString imm16.toNat
  | .ksqueeze => "KSQUEEZE"
  | .khash => "KHASH"
  | .modmul rd rs1 rs2 rm =>
    "MODMUL " ++ xregName rd ++ ", " ++ xregName rs1 ++ ", " ++ xregName rs2 ++ ", " ++ xregName rm
  | .modpow rd rs1 rs2 rm =>
    "MODPOW " ++ xregName rd ++ ", " ++ xregName rs1 ++ ", " ++ xregName rs2 ++ ", " ++ xregName rm
  | .modinv rd rs1 rm => "MODINV " ++ xregName rd ++ ", " ++ xregName rs1 ++ ", " ++ xregName rm
  | .ldc rd c => "LDC " ++ xregName rd ++ ", " ++ c.spelling
  | .padd pd pa pb => "PADD " ++ pregName pd ++ ", " ++ pregName pa ++ ", " ++ pregName pb
  | .pdbl pd pa => "PDBL " ++ pregName pd ++ ", " ++ pregName pa
  | .smul pd rk pa => "SMUL " ++ pregName pd ++ ", " ++ xregName rk ++ ", " ++ pregName pa
  | .ldg pd => "LDG " ++ pregName pd
  | .pser pa => "PSER " ++ pregName pa
  | .k2addr rk => "K2ADDR " ++ xregName rk

namespace Machine

/-- A command line of a listing: `BusWrite(0x0000, zext_64(word))` (R92). -/
def listCommand (i : Instr) : HostEvent := .write 64 0x0000 ((encode i).setWidth 64)

/-- The four writes that store a 256-bit value at offset `off`, least significant word first (R55, R92). -/
def listWide (off : Nat) (v : XWord) : List HostEvent :=
  (List.range 4).map fun w => .write 64 (off + 8 * w) (getDword v w)

/-- `H: x<r> <- v` (R92). -/
def listX (r : XReg) (v : XWord) : List HostEvent := listWide (0x0200 + 0x20 * r.val) v

/-- `H: P<j> <- Pt(a, b)`: eight writes of `x`, `y` and one of `inf = 0`; `H: P<j> <- Inf`: one write of `inf = 1` (R92). -/
def listPoint (j : PReg) : Point → List HostEvent
  | .inf => [.write 64 (0x0440 + 0x80 * j.val) 1]
  | .pt a b =>
    listWide (0x0400 + 0x80 * j.val) a ++ listWide (0x0420 + 0x80 * j.val) b ++ [.write 64 (0x0440 + 0x80 * j.val) 0]

/-- `H: BUF[8q..] <- bytes` as whole words (R57, R92). -/
def listBuf : Nat → List Lane → List HostEvent
  | _, [] => []
  | q, d :: ds => .write 64 (0x1000 + 8 * q) d :: listBuf (q + 1) ds

/-- `H: MLEN <- v` (R92). -/
def listMlen (v : Lane) : HostEvent := .write 64 0x0018 v

/-- `H: read DIG`: the four reads (R92). -/
def listReadDig : List HostEvent := (List.range 4).map fun j => .read 64 (0x0040 + 8 * j)

end Machine

end Sys2Proof
end

