-- ==== Sys2Proof/Safety.lean ====
section
/-! DEFINITION. The terms the statements use: the parts of the state and frames over them, what a recorded fault looks
like, the invariant, and the spec's point addition written as a relation on integers. -/

namespace Sys2Proof.Machine

/-! ### Parts and frames -/

/-- The parts of the state that a frame speaks of: every register and every byte on its own. -/
inductive Part where
  | lanes
  | x (r : XReg)
  | P (j : PReg)
  | byte (a : Nat)
  | mlen
  | plen
  | dig
  | status
  | nblk
  | pending
  | replies
deriving DecidableEq, Repr

/-- A part holds in `t` what it holds in `s`; a byte of the buffer through the model's read. -/
def Part.same (s t : State) : Part → Prop
  | .lanes => t.S = s.S
  | .x r => t.x[r] = s.x[r]
  | .P j => t.P[j] = s.P[j]
  | .byte a => t.BUF.read a = s.BUF.read a
  | .mlen => t.MLEN = s.MLEN
  | .plen => t.PLEN = s.PLEN
  | .dig => t.DIG = s.DIG
  | .status => t.STATUS = s.STATUS
  | .nblk => t.nblkPred = s.nblkPred
  | .pending => t.pending = s.pending
  | .replies => t.replies = s.replies

/-- `t` agrees with `s` on every part outside `changed`. -/
def keepsAllBut (changed : Part → Prop) (s t : State) : Prop := ∀ p, ¬ changed p → p.same s t

/-- The bytes `lo` to `hi - 1` of the buffer: of a canonical buffer, which is what every reachable one is, no byte outside
them. -/
def bytesFrom (s : State) (lo hi : Nat) (p : Part) : Prop := ∃ a, p = .byte a ∧ (s.BUF.wf → lo ≤ a ∧ a < hi)

/-- The parts a command may write in the state `s` (R35, with the bytes that the command rules R122, R127, R181 and R183
give), STATUS only for a command that can fault (R202). -/
def mayWrite (i : Instr) (s : State) (p : Part) : Prop :=
  match i with
  | .kinit => p = .lanes
  | .kf => p = .lanes
  | .kpad => bytesFrom s s.MLEN.toNat s.paddedLen p ∨ p = .plen ∨ p = .status
  | .kabsorb _ => p = .lanes ∨ p = .status
  | .ksqueeze => p = .dig
  | .khash =>
    p = .lanes ∨ bytesFrom s s.MLEN.toNat s.paddedLen p ∨ p = .plen ∨ p = .dig ∨ p = .status
  | .modmul rd _ _ _ => p = .x rd ∨ p = .status
  | .modpow rd _ _ _ => p = .x rd ∨ p = .status
  | .modinv rd _ _ => p = .x rd ∨ p = .status
  | .ldc rd _ => p = .x rd
  | .padd pd _ _ => p = .P pd
  | .pdbl pd _ => p = .P pd
  | .smul pd _ _ => p = .P pd
  | .ldg pd => p = .P pd
  | .pser _ => bytesFrom s 0 Config.pubkeyBytes p ∨ p = .mlen ∨ p = .status
  | .k2addr _ =>
    p = .lanes ∨ bytesFrom s 0 Config.rateBytes p ∨ p = .mlen ∨ p = .plen ∨ p = .dig ∨ p = .status

/-! ### Faults -/

/-- `t` is `s` with a fault of code `code` of the word `w` recorded (R203), as a number: FAULT in bit 0, CAUSE from bit 8,
FINFO from bit 32, every reserved bit 0 (R29); and nothing else has changed. -/
def recordsFault (s t : State) (code : Nat) (w : CmdWord) : Prop :=
  t.STATUS.toNat = 1 + 256 * code + 2 ^ 32 * w.toNat ∧ keepsAllBut (fun p => p = .status) s t

/-- The outcome of a safe step: a next state. -/
def answersNext (r : Result) : Prop := ∃ t, r = .next t

/-! ### The invariant -/

/-- What STATUS can hold (R29, R201): reserved bits 0, all zero when FAULT = 0, a cause from 1 to 4 when FAULT = 1. -/
structure StatusLegal (v : Lane) : Prop where
  low : v.extractLsb' 1 7 = 0
  high : v.extractLsb' 16 16 = 0
  clear : v.getLsbD 0 = false → v = 0
  causeLow : v.getLsbD 0 = true → 1 ≤ (v.extractLsb' 8 8).toNat
  causeHigh : v.getLsbD 0 = true → (v.extractLsb' 8 8).toNat ≤ 4

/-- What every step keeps: the buffer is canonical and inside its capacity (R25), STATUS is legal (R29, R201), and PLEN is
a multiple of 136 that is at most BUF_CAP (R26, R36 b). -/
structure State.Inv (s : State) : Prop where
  bufWf : s.BUF.wf
  bufBelow : s.BUF.below s.bufCap
  status : StatusLegal s.STATUS
  plenMultiple : s.PLEN.toNat % 136 = 0
  plenFits : s.PLEN.toNat ≤ s.bufCap

/-! ### The round constants as R101 describes them -/

/-- The bits that are 1 in each round constant, round 0 first (R101: none but 0, 1, 3, 7, 15, 31 and 63 can be). -/
def roundConstantBits : List (List Nat) :=
  [[0], [1, 7, 15], [1, 3, 7, 15, 63], [15, 31, 63], [0, 1, 3, 7, 15], [0, 31], [0, 7, 15, 31, 63], [0, 3, 15, 63],
   [1, 3, 7], [3, 7], [0, 3, 15, 31], [1, 3, 31], [0, 1, 3, 7, 15, 31], [0, 1, 3, 7, 63], [0, 3, 7, 15, 63],
   [0, 1, 15, 63], [1, 15, 63], [7, 63], [1, 3, 15], [1, 3, 31, 63], [0, 7, 15, 31, 63], [7, 15, 63], [0, 31],
   [3, 15, 31, 63]]

/-- The number whose 1 bits are at the given places. -/
def numberOfBits (places : List Nat) : Nat := (places.map fun b => 2 ^ b).sum

/-! ### Point addition as the rule writes it -/

/-- `p = 2^256 - 2^32 - 977` (R6). -/
def primeP : Int := 2 ^ 256 - 2 ^ 32 - 977

/-- The Fermat inverse of R145 and R160 as a power: `a^(p-2) mod p`, 0 for a multiple of `p`. -/
def fermatInv (a : Int) : Int := (a % primeP) ^ (primeP.toNat - 2) % primeP

/-- The slope of R161: tangent when the stored values are equal, chord otherwise. -/
def slopeOf (x1 y1 x2 y2 : Int) : Int :=
  if x1 = x2 ∧ y1 = y2 then 3 * x1 * x1 * fermatInv (2 * y1) % primeP
  else (y2 - y1) * fermatInv (x2 - x1) % primeP

/-- `r` is the sum that R161 gives to `u` and `v`. -/
def PointSum (u v r : Point) : Prop :=
  match u, v with
  | .inf, q => r = q
  | .pt x y, .inf => r = .pt x y
  | .pt x1 y1, .pt x2 y2 =>
    ∃ a b : XWord, r = .pt a b ∧
      (a.toNat : Int) = (slopeOf x1.toNat y1.toNat x2.toNat y2.toNat * slopeOf x1.toNat y1.toNat x2.toNat y2.toNat
        - x1.toNat - x2.toNat) % primeP ∧
      (b.toNat : Int) = (slopeOf x1.toNat y1.toNat x2.toNat y2.toNat * (x1.toNat - a.toNat) - y1.toNat) % primeP

/-- `r` is the sum that R162 gives: double-and-add over the `n` bits of `k`, least significant first. -/
def ScalarMultiple (k : Nat) (u r : Point) : Prop :=
  ∃ (n : Nat) (R A : Nat → Point),
    k < 2 ^ n ∧ (n = 0 ∨ 2 ^ (n - 1) ≤ k) ∧ R 0 = .inf ∧ A 0 = u ∧
    (∀ i, i < n → PointSum (A i) (A i) (A (i + 1)) ∧
      (k.testBit i = true → PointSum (R i) (A i) (R (i + 1))) ∧ (k.testBit i = false → R (i + 1) = R i)) ∧
    r = R n

/-- A point register holds a point value as a command stores it (R24). -/
def storedAs (reg : PointReg) : Point → Prop
  | .inf => reg.inf = true ∧ reg.x = 0 ∧ reg.y = 0
  | .pt a b => reg.inf = false ∧ reg.x = a ∧ reg.y = b

/-- A pair of coordinates satisfies `y² ≡ x³ + 7 (mod p)` (R2). -/
def OnCurve (x y : XWord) : Prop :=
  ((y.toNat : Int) * y.toNat - (x.toNat * x.toNat * x.toNat + 7)) % primeP = 0

/-! ### The bus -/

/-- The unmapped offsets of R53, for a buffer of `cap` bytes; a point register's last seven words are unmapped (R56). -/
def unmapped (cap off : Nat) : Prop :=
  (0x0030 ≤ off ∧ off < 0x0040) ∨ (0x0060 ≤ off ∧ off < 0x0100) ∨ (0x01C8 ≤ off ∧ off < 0x0200) ∨
  (0x0400 ≤ off ∧ off < 0x0600 ∧ 0x48 ≤ off % 0x80) ∨ (0x0600 ≤ off ∧ off < 0x1000) ∨ 0x1000 + cap ≤ off

/-- The write-only locations, CMD and FAULTCLR (R53, R59). -/
def writeOnly (off : Nat) : Prop := off = 0x0000 ∨ off = 0x0010

/-- The read-only locations, STATUS, PLEN, CAP, DIG and S (R53, R59). -/
def readOnly (off : Nat) : Prop :=
  off = 0x0008 ∨ off = 0x0020 ∨ off = 0x0028 ∨ (0x0040 ≤ off ∧ off < 0x0060) ∨ (0x0100 ≤ off ∧ off < 0x01C8)

/-- The transactions that the bus refuses (R59). -/
def refusedByBus (s : State) : HostEvent → Prop
  | .read width off => width ≠ 64 ∨ off % 8 ≠ 0 ∨ unmapped s.bufCap off ∨ writeOnly off
  | .write width off _ => width ≠ 64 ∨ off % 8 ≠ 0 ∨ unmapped s.bufCap off ∨ readOnly off
  | .reset _ => False

/-- The host's side of the bus after an answer: the transaction is taken off and the answer recorded. -/
def answered (s t : State) (rest : List HostEvent) (r : BusReply) : Prop :=
  t.pending = rest ∧ t.replies = r :: s.replies

/-- The parts that every transaction may change: the host's side of the bus. -/
def busSide (p : Part) : Prop := p = .pending ∨ p = .replies

/-- A 64-bit bus read of offset `off` completes with the value `v` and changes nothing in the block (R60). -/
def readGives (s : State) (off : Nat) (v : Lane) : Prop :=
  ∀ rest, ∃ t, step (s.setPending (.read 64 off :: rest)) = .next t ∧ answered s t rest (.data v) ∧
    keepsAllBut busSide s t

/-- A 64-bit bus write of `d` to offset `off` completes with Ok, and the block is then as `post` says. -/
def writeGives (s : State) (off : Nat) (d : Lane) (post : State → Prop) : Prop :=
  ∀ rest, ∃ t, step (s.setPending (.write 64 off d :: rest)) = .next t ∧ answered s t rest .ok ∧ post t

end Sys2Proof.Machine
end

