-- ==== Sys2Proof/Certificates/Slice0/Obligations.lean ====
section
/-! DEFINITION. The statements for the provers. Each docstring names the rules of spec/ that its statement formalises; the
frames speak through `Part.same`, a byte of the buffer through the model's read of it. -/

open Sys2Proof Sys2Proof.Machine

/-! ### Keccak-f[1600] -/

/-- R109: KINIT zeroes all 25 lanes and nothing else changes. -/
def Obligations.KinitZeroesEveryLane : Prop :=
  (encode .kinit).toNat = 0x01 ∧
  ∀ s : State, ∃ t, exec .kinit s = .next t ∧ (∀ i : Fin 25, t.S[i] = 0#64) ∧
    keepsAllBut (fun p => p = .lanes) s t

/-- R10: `rotl64` is the rule's arithmetic. -/
def Obligations.RotationIsTheRulesArithmetic : Prop :=
  ∀ (v : Lane) (r : Nat), r < 64 →
    (rotl64 v r).toNat = if r = 0 then v.toNat else v.toNat * 2 ^ r % 2 ^ 64 + v.toNat / 2 ^ (64 - r)

/-- R101 to R108, R110: KF runs rounds 0 to 23, each θ (`C`, `D`, `B`), ρ and π as a scatter (`T`), χ and ι; nothing but the
lanes changes. The arrays are determined by the equations. The three tables are fixed as numbers: `RC` by the 1 bits of each
entry, `RHO` entry by entry, `PI` by the formula of R103, `PIINV` as its inverse. -/
def Obligations.KfRunsTwentyFourRounds : Prop :=
  RC.toList.map BitVec.toNat = roundConstantBits.map numberOfBits ∧
  RHO.toList =
    [0, 1, 62, 28, 27, 36, 44, 6, 55, 20, 3, 10, 43, 25, 39, 41, 45, 15, 21, 8, 18, 2, 61, 56, 14] ∧
  (∀ i : Fin 25, PI[i].val = i.val / 5 + 5 * ((2 * (i.val % 5) + 3 * (i.val / 5)) % 5) ∧ PIINV[PI[i]] = i) ∧
  (encode .kf).toNat = 0x02 ∧
  ∀ s : State, ∃ (A B T : Nat → Fin 25 → Lane) (C D : Nat → Fin 5 → Lane) (t : State),
    (∀ i, A 0 i = s.S[i]) ∧
    (∀ r < 24, ∀ x : Fin 5, C r x = A r (Fin.ofNat 25 x.val) ^^^ A r (Fin.ofNat 25 (x.val + 5)) ^^^
      A r (Fin.ofNat 25 (x.val + 10)) ^^^ A r (Fin.ofNat 25 (x.val + 15)) ^^^ A r (Fin.ofNat 25 (x.val + 20))) ∧
    (∀ r < 24, ∀ x : Fin 5, D r x = C r (Fin.ofNat 5 (x.val + 4)) ^^^ rotl64 (C r (Fin.ofNat 5 (x.val + 1))) 1) ∧
    (∀ r < 24, ∀ i : Fin 25, B r i = A r i ^^^ D r (Fin.ofNat 5 i.val)) ∧
    (∀ r < 24, ∀ i : Fin 25, T r PI[i] = rotl64 (B r i) RHO[i]) ∧
    (∀ r : Fin 24, ∀ i : Fin 25, A (r.val + 1) i =
      (T r i ^^^ ((~~~ (T r (Fin.ofNat 25 (5 * (i.val / 5) + (i.val % 5 + 1) % 5)))) &&&
        T r (Fin.ofNat 25 (5 * (i.val / 5) + (i.val % 5 + 2) % 5)))) ^^^ (if i = 0 then RC[r] else 0#64)) ∧
    exec .kf s = .next t ∧ (∀ i : Fin 25, t.S[i] = A 24 i) ∧ keepsAllBut (fun p => p = .lanes) s t

/-! ### The sponge -/

/-- R120: `pad` appends 0x01, then zeros up to the next multiple of 136, with 0x80 ORed into the last byte. -/
def Obligations.PadAppendsTheMultiRatePadding : Prop :=
  ∀ M : List Byte,
    (pad M).length = 136 * (M.length / 136 + 1) ∧
    ∀ k < (pad M).length, (pad M).getD k 0 =
      if k < M.length then M.getD k 0
      else (if k = M.length then 0x01#8 else 0#8) ||| (if k = (pad M).length - 1 then 0x80#8 else 0#8)

/-- R122: KPAD pads the message in the buffer in place and records the padded length, and running it again changes nothing;
it faults with cause 2 when MLEN ≥ BUF_CAP. -/
def Obligations.KpadPadsTheMessageInPlace : Prop :=
  (encode .kpad).toNat = 0x03 ∧
  ∀ s : State, s.BUF.wf →
    (136 * s.nblk ≤ s.MLEN.toNat → ∃ t, exec .kpad s = .next t ∧ recordsFault s t 2 0x03#32) ∧
    (s.MLEN.toNat < 136 * s.nblk → ∃ t, exec .kpad s = .next t ∧
      t.PLEN.toNat = 136 * (s.MLEN.toNat / 136 + 1) ∧
      (∀ a, s.MLEN.toNat ≤ a → a < t.PLEN.toNat → t.BUF.read a =
        (if a = s.MLEN.toNat then 0x01#8 else 0#8) ||| (if a = t.PLEN.toNat - 1 then 0x80#8 else 0#8)) ∧
      t.BUF.readBytes 0 t.PLEN.toNat = pad (s.BUF.readBytes 0 s.MLEN.toNat) ∧
      keepsAllBut (fun p => p = .plen ∨ ∃ a, p = .byte a ∧ s.MLEN.toNat ≤ a ∧ a < t.PLEN.toNat) s t ∧
      exec .kpad t = .next t)

/-- R121, R123: KABSORB XORs the bytes of its block into lanes 0 to 16, little-endian, and permutes; lanes 17 to 24 see no
input; it faults with cause 2 when the block lies outside the buffer. -/
def Obligations.KabsorbAbsorbsOneBlock : Prop :=
  ∀ (b : BitVec 16) (s : State),
    (encode (.kabsorb b)).toNat = 0x04 + 256 * b.toNat ∧
    (s.nblk ≤ b.toNat → ∃ t, exec (.kabsorb b) s = .next t ∧ recordsFault s t 2 (encode (.kabsorb b))) ∧
    (b.toNat < s.nblk → ∃ (t : State) (X : Lanes), exec (.kabsorb b) s = .next t ∧
      (∀ j : Fin 25, ∀ k < 8, (X[j] ^^^ s.S[j]).extractLsb' (8 * k) 8 =
        if j.val < 17 then s.BUF.read (136 * b.toNat + 8 * j.val + k) else 0#8) ∧
      t.S = keccakF X ∧ keepsAllBut (fun p => p = .lanes) s t)

/-- R124, R125, R57: KSQUEEZE captures the first four lanes as little-endian bytes; word `j` of DIG then reads as lane `j`. -/
def Obligations.KsqueezeCapturesTheDigest : Prop :=
  (encode .ksqueeze).toNat = 0x05 ∧
  ∀ s : State, ∃ t, exec .ksqueeze s = .next t ∧
    (∀ d : Fin 32, t.DIG[d] = (s.S[Fin.ofNat 25 (d.val / 8)]).extractLsb' (8 * (d.val % 8)) 8) ∧
    (∀ j : Fin 4, t.busRead 64 (0x0040 + 8 * j.val) = .data s.S[Fin.ofNat 25 j.val]) ∧
    keepsAllBut (fun p => p = .dig) s t

/-- R126, R127: KHASH leaves the Keccak-256 digest of the message, the padded buffer, the padded length and the lanes after
the last block, and run again leaves the same state; it faults with cause 2, changing nothing else, when MLEN ≥ BUF_CAP. -/
def Obligations.KhashDigestsTheMessage : Prop :=
  (encode .khash).toNat = 0x06 ∧
  ∀ s : State, s.BUF.wf →
    (136 * s.nblk ≤ s.MLEN.toNat → ∃ t, exec .khash s = .next t ∧ recordsFault s t 2 0x06#32) ∧
    (s.MLEN.toNat < 136 * s.nblk → ∃ t, exec .khash s = .next t ∧
      t.DIG = keccak256 (s.BUF.readBytes 0 s.MLEN.toNat) ∧
      t.S = (List.range (s.MLEN.toNat / 136 + 1)).foldl
        (fun A k => absorbBlock A (((pad (s.BUF.readBytes 0 s.MLEN.toNat)).drop (136 * k)).take 136))
        (Vector.replicate 25 0#64) ∧
      t.PLEN.toNat = 136 * (s.MLEN.toNat / 136 + 1) ∧
      t.BUF.readBytes 0 t.PLEN.toNat = pad (s.BUF.readBytes 0 s.MLEN.toNat) ∧
      keepsAllBut (fun p => p = .lanes ∨ p = .dig ∨ p = .plen ∨
        ∃ a, p = .byte a ∧ s.MLEN.toNat ≤ a ∧ a < t.PLEN.toNat) s t ∧
      exec .khash t = .next t)

/-- R128: KHASH leaves exactly the state that KINIT, KPAD, KABSORB of blocks 0, 1, … and KSQUEEZE leave one after the
other. -/
def Obligations.KhashEqualsItsParts : Prop :=
  ∀ s : State, s.MLEN.toNat < s.bufCap →
    ∃ (s1 : State) (f : Nat → State) (t : State),
      exec .kinit s = .next s1 ∧ exec .kpad s1 = .next (f 0) ∧
      (∀ k, k < (f 0).PLEN.toNat / 136 → exec (.kabsorb (BitVec.ofNat 16 k)) (f k) = .next (f (k + 1))) ∧
      exec .ksqueeze (f ((f 0).PLEN.toNat / 136)) = .next t ∧ exec .khash s = .next t

/-! ### Modular arithmetic -/

/-- R143: MODMUL writes the full product reduced; modulus 0 faults with cause 3. -/
def Obligations.ModmulReducesTheFullProduct : Prop :=
  ∀ (rd rs1 rs2 rm : XReg) (s : State),
    (encode (.modmul rd rs1 rs2 rm)).toNat =
      0x10 + 256 * rd.val + 4096 * rs1.val + 65536 * rs2.val + 1048576 * rm.val ∧
    (s.x[rm].toNat = 0 → ∃ t, exec (.modmul rd rs1 rs2 rm) s = .next t ∧
      recordsFault s t 3 (encode (.modmul rd rs1 rs2 rm))) ∧
    (s.x[rm].toNat ≠ 0 → ∃ t, exec (.modmul rd rs1 rs2 rm) s = .next t ∧
      t.x[rd].toNat = s.x[rs1].toNat * s.x[rs2].toNat % s.x[rm].toNat ∧
      keepsAllBut (fun p => p = .x rd) s t)

/-- R142, R144: MODPOW writes `base^exponent mod modulus`; modulus 0 faults with cause 3. -/
def Obligations.ModpowIsThePower : Prop :=
  ∀ (rd rs1 rs2 rm : XReg) (s : State),
    (encode (.modpow rd rs1 rs2 rm)).toNat =
      0x11 + 256 * rd.val + 4096 * rs1.val + 65536 * rs2.val + 1048576 * rm.val ∧
    (s.x[rm].toNat = 0 → ∃ t, exec (.modpow rd rs1 rs2 rm) s = .next t ∧
      recordsFault s t 3 (encode (.modpow rd rs1 rs2 rm))) ∧
    (s.x[rm].toNat ≠ 0 → ∃ t, exec (.modpow rd rs1 rs2 rm) s = .next t ∧
      t.x[rd].toNat = s.x[rs1].toNat ^ s.x[rs2].toNat % s.x[rm].toNat ∧
      keepsAllBut (fun p => p = .x rd) s t)

/-- R145, R146: MODINV writes `a^(m-2) mod m`; modulus 0 or 1 faults with cause 3. -/
def Obligations.ModinvIsTheFermatPower : Prop :=
  ∀ (rd rs1 rm : XReg) (s : State),
    (encode (.modinv rd rs1 rm)).toNat = 0x12 + 256 * rd.val + 4096 * rs1.val + 1048576 * rm.val ∧
    (s.x[rm].toNat < 2 → ∃ t, exec (.modinv rd rs1 rm) s = .next t ∧
      recordsFault s t 3 (encode (.modinv rd rs1 rm))) ∧
    (2 ≤ s.x[rm].toNat → ∃ t, exec (.modinv rd rs1 rm) s = .next t ∧
      t.x[rd].toNat = s.x[rs1].toNat ^ (s.x[rm].toNat - 2) % s.x[rm].toNat ∧
      keepsAllBut (fun p => p = .x rd) s t)

/-- R145: `modinv` is the Fermat power for every modulus from 2 on; for a prime modulus it is the inverse of every value
that is not a multiple of it; of a multiple it is 0 when the modulus is above 2; with modulus 2 it is 1. -/
def Obligations.FermatPowerInvertsModuloAPrime : Prop :=
  (∀ a m : Nat, 2 ≤ m → modinv a m = a ^ (m - 2) % m) ∧
  (∀ a m : Nat, m.Prime → a % m ≠ 0 → a * modinv a m % m = 1) ∧
  (∀ a m : Nat, 2 < m → a % m = 0 → modinv a m = 0) ∧
  (∀ a : Nat, modinv a 2 = 1)

/-- R160: `inv_p` is the Fermat power of the residue; it inverts every integer that is not a multiple of the field prime and
sends the multiples to 0. -/
def Obligations.FieldInverseInverts : Prop :=
  ∀ a : Int, (invP a : Int) = (a % primeP) ^ (primeP.toNat - 2) % primeP ∧
    (a % primeP ≠ 0 → a * (invP a : Int) % primeP = 1) ∧ (a % primeP = 0 → invP a = 0)

/-- R141: an operand at or above the modulus gives the same result as its residue, at MODMUL and at MODPOW: two states
whose operands agree modulo the modulus leave the same value. -/
def Obligations.OperandsMayExceedTheModulus : Prop :=
  ∀ (rd rs1 rs2 rm : XReg) (s s' : State), s'.x[rm] = s.x[rm] → s.x[rm].toNat ≠ 0 →
    s'.x[rs1].toNat % s.x[rm].toNat = s.x[rs1].toNat % s.x[rm].toNat →
    (s'.x[rs2].toNat % s.x[rm].toNat = s.x[rs2].toNat % s.x[rm].toNat →
      ∃ t t', exec (.modmul rd rs1 rs2 rm) s = .next t ∧ exec (.modmul rd rs1 rs2 rm) s' = .next t' ∧
        t'.x[rd] = t.x[rd]) ∧
    (s'.x[rs2] = s.x[rs2] →
      ∃ t t', exec (.modpow rd rs1 rs2 rm) s = .next t ∧ exec (.modpow rd rs1 rs2 rm) s' = .next t' ∧
        t'.x[rd] = t.x[rd])

/-- R140, R147: LDC writes `p = 2^256 - 2^32 - 977`, `n`, `Gx` or `Gy`, by the selector. -/
def Obligations.LdcLoadsTheConstants : Prop :=
  ∀ (rd : XReg) (c : CurveConst) (s : State), ∃ t, exec (.ldc rd c) s = .next t ∧
    (match c with
     | .p => (encode (.ldc rd c)).toNat = 0x13 + 256 * rd.val ∧ t.x[rd].toNat = 2 ^ 256 - 2 ^ 32 - 977
     | .n => (encode (.ldc rd c)).toNat = 0x13 + 256 * rd.val + 4096 * 1 ∧
       t.x[rd].toNat = 0xFFFFFFFFFFFFFFFFFFFFFFFFFFFFFFFEBAAEDCE6AF48A03BBFD25E8CD0364141
     | .gx => (encode (.ldc rd c)).toNat = 0x13 + 256 * rd.val + 4096 * 2 ∧
       t.x[rd].toNat = 0x79BE667EF9DCBBAC55A06295CE870B07029BFCDB2DCE28D959F2815B16F81798
     | .gy => (encode (.ldc rd c)).toNat = 0x13 + 256 * rd.val + 4096 * 3 ∧
       t.x[rd].toNat = 0x483ADA7726A3C4655DA4FBFC0E1108A8FD17B448A68554199C47D08FFB10D4B8) ∧
    keepsAllBut (fun p => p = .x rd) s t

/-! ### Curve points -/

/-- R161, R163: PADD stores the sum of the two points as they stood before the write. -/
def Obligations.PaddAddsTwoPoints : Prop :=
  ∀ (pd pa pb : PReg) (s : State),
    (encode (.padd pd pa pb)).toNat = 0x20 + 256 * pd.val + 4096 * pa.val + 65536 * pb.val ∧
    ∃ (t : State) (r : Point), exec (.padd pd pa pb) s = .next t ∧
      PointSum s.P[pa].value s.P[pb].value r ∧ storedAs t.P[pd] r ∧ keepsAllBut (fun p => p = .P pd) s t

/-- R161, R164: PDBL stores the double of the point, exactly as PADD of the point with itself. -/
def Obligations.PdblDoublesAPoint : Prop :=
  ∀ (pd pa : PReg) (s : State),
    (encode (.pdbl pd pa)).toNat = 0x21 + 256 * pd.val + 4096 * pa.val ∧
    ∃ (t : State) (r : Point), exec (.pdbl pd pa) s = .next t ∧ exec (.padd pd pa pa) s = .next t ∧
      PointSum s.P[pa].value s.P[pa].value r ∧ storedAs t.P[pd] r ∧ keepsAllBut (fun p => p = .P pd) s t

/-- R162, R165: SMUL stores the double-and-add multiple over the bits of the scalar, least significant first, of the point
as it stood before the write; no scalar faults. -/
def Obligations.SmulAddsByTheBitsOfTheScalar : Prop :=
  ∀ (pd : PReg) (rk : XReg) (pa : PReg) (s : State),
    (encode (.smul pd rk pa)).toNat = 0x22 + 256 * pd.val + 4096 * rk.val + 65536 * pa.val ∧
    ∃ (t : State) (r : Point), exec (.smul pd rk pa) s = .next t ∧
      ScalarMultiple s.x[rk].toNat s.P[pa].value r ∧ storedAs t.P[pd] r ∧ keepsAllBut (fun p => p = .P pd) s t

/-- R165, R166: a zero scalar gives the identity for every point, the scalar 1 copies the point as stored, and the identity
stays the identity for every scalar. -/
def Obligations.SmulOfZeroOneAndTheIdentity : Prop :=
  (∀ P, smul 0 P = .inf) ∧ (∀ P, smul 1 P = P) ∧ (∀ k, smul k .inf = .inf)

/-- R183 (derived there): the multiple of a point other than the identity is the identity exactly for the scalar 0. -/
def Obligations.SmulGivesTheIdentityOnlyForZero : Prop :=
  ∀ (k : Nat) (x y : XWord), smul k (.pt x y) = .inf ↔ k = 0

/-- R167: LDG stores the generator. -/
def Obligations.LdgLoadsTheGenerator : Prop :=
  ∀ (pd : PReg) (s : State), (encode (.ldg pd)).toNat = 0x23 + 256 * pd.val ∧
    ∃ t, exec (.ldg pd) s = .next t ∧
      t.P[pd].inf = false ∧
      t.P[pd].x.toNat = 0x79BE667EF9DCBBAC55A06295CE870B07029BFCDB2DCE28D959F2815B16F81798 ∧
      t.P[pd].y.toNat = 0x483ADA7726A3C4655DA4FBFC0E1108A8FD17B448A68554199C47D08FFB10D4B8 ∧
      OnCurve t.P[pd].x t.P[pd].y ∧ keepsAllBut (fun p => p = .P pd) s t

/-- R169, first three rows: opposite points, points that agree in `x` only modulo `p`, and a doubling with `y` a multiple of
`p` give slope 0, never the identity. -/
def Obligations.ExceptionalAdditionsHaveSlopeZero : Prop :=
  (∀ x1 y1 x2 y2 : XWord, ¬ (x1 = x2 ∧ y1 = y2) → (x1.toNat : Int) % primeP = (x2.toNat : Int) % primeP →
    ∃ a b : XWord, padd (.pt x1 y1) (.pt x2 y2) = .pt a b ∧
      (a.toNat : Int) = (-(x1.toNat : Int) - x2.toNat) % primeP ∧ (b.toNat : Int) = (-(y1.toNat : Int)) % primeP) ∧
  (∀ x y : XWord, (y.toNat : Int) % primeP = 0 →
    ∃ a b : XWord, padd (.pt x y) (.pt x y) = .pt a b ∧
      (a.toNat : Int) = (-2 * (x.toNat : Int)) % primeP ∧ (b.toNat : Int) = (-(y.toNat : Int)) % primeP)

/-- R169, fourth row: doubling a point with unreduced coordinates equals doubling the reduced point. -/
def Obligations.DoublingReducesItsOperand : Prop :=
  ∀ x y x' y' : XWord, (x'.toNat : Int) = (x.toNat : Int) % primeP → (y'.toNat : Int) = (y.toNat : Int) % primeP →
    padd (.pt x y) (.pt x y) = padd (.pt x' y') (.pt x' y')

/-- R36 (d), (e): the sum of two points of the curve with coordinates in `[0, p)`, not opposite and not doubled at `y = 0`,
is a point of the curve with coordinates in `[0, p)`. -/
def Obligations.PointAdditionStaysOnTheCurve : Prop :=
  ∀ x1 y1 x2 y2 : XWord, (x1.toNat : Int) < primeP → (y1.toNat : Int) < primeP → (x2.toNat : Int) < primeP →
    (y2.toNat : Int) < primeP → OnCurve x1 y1 → OnCurve x2 y2 → (x1 = x2 → y1 = y2 ∧ y1 ≠ 0#256) →
    ∃ a b : XWord, padd (.pt x1 y1) (.pt x2 y2) = .pt a b ∧ OnCurve a b ∧
      (a.toNat : Int) < primeP ∧ (b.toNat : Int) < primeP

/-! ### The derivation pipeline -/

/-- R180, R181: PSER writes the 64 big-endian bytes of the point and sets MLEN to 64; the identity faults with cause 4. -/
def Obligations.PserSerialisesThePoint : Prop :=
  ∀ (pa : PReg) (s : State), s.BUF.wf →
    (encode (.pser pa)).toNat = 0x24 + 4096 * pa.val ∧
    (s.P[pa].inf = true → ∃ t, exec (.pser pa) s = .next t ∧ recordsFault s t 4 (encode (.pser pa))) ∧
    (s.P[pa].inf = false → ∃ t, exec (.pser pa) s = .next t ∧ t.MLEN.toNat = 64 ∧
      (∀ j < 32, t.BUF.read j = s.P[pa].x.extractLsb' (248 - 8 * j) 8 ∧
        t.BUF.read (32 + j) = s.P[pa].y.extractLsb' (248 - 8 * j) 8) ∧
      keepsAllBut (fun p => p = .mlen ∨ ∃ a, p = .byte a ∧ a < 64) s t)

/-- R182, R183: K2ADDR of a non-zero key leaves the serialised public key, its padding, the lengths, the digest and the
address; of the key 0 it faults with cause 4. No general and no point register changes. -/
def Obligations.K2addrDerivesTheAddress : Prop :=
  ∀ (rk : XReg) (s : State), s.BUF.wf →
    (encode (.k2addr rk)).toNat = 0x30 + 4096 * rk.val ∧
    (s.x[rk].toNat = 0 → ∃ t, exec (.k2addr rk) s = .next t ∧ recordsFault s t 4 (encode (.k2addr rk))) ∧
    (s.x[rk].toNat ≠ 0 → ∃ (t : State) (x y : XWord), exec (.k2addr rk) s = .next t ∧
      smul s.x[rk].toNat generator = .pt x y ∧
      (∀ j < 32, t.BUF.read j = x.extractLsb' (248 - 8 * j) 8 ∧
        t.BUF.read (32 + j) = y.extractLsb' (248 - 8 * j) 8) ∧
      t.BUF.read 64 = 0x01#8 ∧ (∀ a, 65 ≤ a → a < 135 → t.BUF.read a = 0#8) ∧ t.BUF.read 135 = 0x80#8 ∧
      t.MLEN.toNat = 64 ∧ t.PLEN.toNat = 136 ∧
      t.S = absorbBlock (Vector.replicate 25 0#64) (t.BUF.readBytes 0 136) ∧
      t.DIG = keccak256 (t.BUF.readBytes 0 64) ∧
      k2addr s.x[rk].toNat = some (t.DIG.toList.drop 12) ∧
      keepsAllBut (fun p => p = .lanes ∨ p = .dig ∨ p = .mlen ∨ p = .plen ∨ ∃ a, p = .byte a ∧ a < 136) s t)

/-- R184: for a non-zero key the commands LDG, SMUL, PSER, KHASH leave what K2ADDR leaves, and the public key in a point
register besides; for the key 0 PSER faults, the identity already stored, where K2ADDR faults with nothing written. -/
def Obligations.K2addrEqualsTheLongRoute : Prop :=
  ∀ (j : PReg) (rk : XReg) (s : State),
    (s.x[rk].toNat ≠ 0 →
      ∃ s1 s2 s3 t u, exec (.ldg j) s = .next s1 ∧ exec (.smul j rk j) s1 = .next s2 ∧ exec (.pser j) s2 = .next s3 ∧
        exec .khash s3 = .next t ∧ exec (.k2addr rk) s = .next u ∧
        t.S = u.S ∧ t.BUF = u.BUF ∧ t.MLEN = u.MLEN ∧ t.PLEN = u.PLEN ∧ t.DIG = u.DIG ∧
        t.P[j].value = smul s.x[rk].toNat generator ∧ keepsAllBut (fun p => p = .P j) u t) ∧
    (s.x[rk].toNat = 0 →
      ∃ s1 s2 t u, exec (.ldg j) s = .next s1 ∧ exec (.smul j rk j) s1 = .next s2 ∧ s2.P[j].inf = true ∧
        keepsAllBut (fun p => p = .P j) s s2 ∧ exec (.pser j) s2 = .next t ∧ recordsFault s2 t 4 (encode (.pser j)) ∧
        exec (.k2addr rk) s = .next u ∧ recordsFault s u 4 (encode (.k2addr rk)))

/-- R184: what K2ADDR leaves in the digest, the lanes, the lengths and the first block depends on the key alone. -/
def Obligations.K2addrReadsOnlyItsKey : Prop :=
  ∀ (rk rk' : XReg) (s s' : State), s.BUF.wf → s'.BUF.wf → s'.x[rk'] = s.x[rk] → s.x[rk].toNat ≠ 0 →
    ∃ t t', exec (.k2addr rk) s = .next t ∧ exec (.k2addr rk') s' = .next t' ∧
      t'.DIG = t.DIG ∧ t'.S = t.S ∧ t'.MLEN = t.MLEN ∧ t'.PLEN = t.PLEN ∧
      ∀ a < 136, t'.BUF.read a = t.BUF.read a

/-! ### Encoding and decoding -/

/-- R81 to R86: the decoder reads back every instruction from the word the encoder writes. -/
def Obligations.DecodeOfEncodeIsTheInstruction : Prop :=
  ∀ i : Instr, i.wellFormed = true → decode (encode i) = .ok i

/-- R86: a word that decodes is the word of its command, so no two words decode to one command. -/
def Obligations.EncodeOfDecodeIsTheWord : Prop :=
  ∀ (w : CmdWord) (i : Instr), decode w = .ok i → encode i = w

/-- R82, R83, R85 to R87: by the mask and match table a word is a command exactly when its fields pass the format checks,
and every other word is rejected as itself. -/
def Obligations.LegalWordsAreTheWellFormedOnes : Prop :=
  ∀ w : CmdWord, (WellFormedWord w = true → ∃ i, decode w = .ok i) ∧
    (WellFormedWord w = false → decode w = .error (.illegalCommand w))

/-- R85: at most one row of the opcode map matches a word. -/
def Obligations.AtMostOneRowAcceptsAWord : Prop :=
  ∀ (w : CmdWord) (i j : Fin opcodeTable.length),
    opcodeTable[i].accepts w = true → opcodeTable[j].accepts w = true → i = j

/-- R91: printed words of every family decode to the commands printed beside them. -/
def Obligations.PrintedWordsDecode : Prop :=
  decode 0x00000002#32 = .ok .kf ∧ decode 0x00000104#32 = .ok (.kabsorb 1) ∧
  decode 0x00F21310#32 = .ok (.modmul 3 1 2 15) ∧ decode 0x00F01212#32 = .ok (.modinv 2 1 15) ∧
  decode 0x00003213#32 = .ok (.ldc 2 .gy) ∧ decode 0x00001220#32 = .ok (.padd 2 1 0) ∧
  decode 0x00027322#32 = .ok (.smul 3 7 2) ∧ decode 0x00001024#32 = .ok (.pser 1) ∧
  decode 0x00005030#32 = .ok (.k2addr 5) ∧ decode 0x00010212#32 = .error (.illegalCommand 0x00010212#32)

/-! ### The machine -/

/-- R58: when the next transaction is the CMD write of a word that decodes to `i` and no fault is recorded, the step is
`exec i` on the state with that transaction taken off, and the bus then answers Ok. -/
def Obligations.StepRunsTheDecodedCommand : Prop :=
  ∀ (s : State) (data : Lane) (rest : List HostEvent) (i : Instr),
    s.pending = .write 64 0x0000 data :: rest → s.faulted = false → decode (data.extractLsb' 0 32) = .ok i →
    step s = withReply .ok (exec i (s.setPending rest)) ∧
    ∀ u, exec i (s.setPending rest) = .next u → step s = .next (u.pushReply .ok)

/-- How the host's interface places a command: after `withFetchWord` of a word that decodes to `i`, the step is `exec i` on
the same state, STATUS cleared first if a fault was recorded (notes/assumptions/6.md: the model's choice). -/
def Obligations.FetchWordRunsItsCommand : Prop :=
  ∀ (s : State) (w : Nat) (i : Instr), w < 2 ^ 32 → decodeTableWord 32 w = some i →
    ∃ s0 : State, keepsAllBut (fun p => p = .status) s s0 ∧ s0.STATUS = (if s.faulted then 0 else s.STATUS) ∧
      step (s.withFetchWord 32 w) = withReply .ok (exec i s0)

/-- R204: while a fault is recorded every CMD write is dropped: nothing changes and the bus answers Ok. -/
def Obligations.CommandsAreDroppedWhileFaulted : Prop :=
  ∀ (s : State) (data : Lane), s.faulted = true →
    writeGives s 0x0000 data (fun t => keepsAllBut busSide s t)

/-- R86, R201, R203: a word that matches no row faults with cause 1 and its own word, and changes nothing else. -/
def Obligations.IllegalWordsFault : Prop :=
  ∀ (s : State) (data : Lane), s.faulted = false → WellFormedWord (data.extractLsb' 0 32) = false →
    writeGives s 0x0000 data (fun t =>
      t.STATUS.toNat = 1 + 256 * 1 + 2 ^ 32 * (data.toNat % 2 ^ 32) ∧
      keepsAllBut (fun p => p = .status ∨ busSide p) s t)

/-- R51, R59: the bus refuses exactly the transactions the rule lists, and a refused one changes nothing. -/
def Obligations.BusRefusesExactlyTheIllegalAccesses : Prop :=
  ∀ (s : State) (e : HostEvent) (rest : List HostEvent), s.pending = e :: rest →
    (refusedByBus s e → ∃ t, step s = .next t ∧ answered s t rest .busError ∧ keepsAllBut busSide s t) ∧
    (¬ refusedByBus s e → ∃ t, step s = .next t ∧ t.pending = rest ∧ t.replies ≠ .busError :: s.replies)

/-- R53 to R57: what each readable location reads as, everywhere in the map. -/
def Obligations.ReadsReturnTheRegisterMap : Prop :=
  ∀ s : State,
    readGives s 0x0008 s.STATUS ∧ readGives s 0x0018 s.MLEN ∧ readGives s 0x0020 s.PLEN ∧
    (∃ v : Lane, v.toNat = 136 * s.nblk ∧ readGives s 0x0028 v) ∧
    (∀ j : Fin 4, ∃ v : Lane, readGives s (0x0040 + 8 * j.val) v ∧
      ∀ k < 8, v.extractLsb' (8 * k) 8 = s.DIG[Fin.ofNat 32 (8 * j.val + k)]) ∧
    (∀ i : Fin 25, readGives s (0x0100 + 8 * i.val) s.S[i]) ∧
    (∀ (r : XReg) (w : Fin 4), readGives s (0x0200 + 0x20 * r.val + 8 * w.val) (s.x[r].extractLsb' (64 * w.val) 64)) ∧
    (∀ (j : PReg) (w : Fin 4),
      readGives s (0x0400 + 0x80 * j.val + 8 * w.val) (s.P[j].x.extractLsb' (64 * w.val) 64) ∧
      readGives s (0x0420 + 0x80 * j.val + 8 * w.val) (s.P[j].y.extractLsb' (64 * w.val) 64)) ∧
    (∀ j : PReg, readGives s (0x0440 + 0x80 * j.val) (if s.P[j].inf then 1#64 else 0#64)) ∧
    (∀ q, 8 * q < s.bufCap → ∃ v : Lane, readGives s (0x1000 + 8 * q) v ∧
      ∀ k < 8, v.extractLsb' (8 * k) 8 = s.BUF.read (8 * q + k))

/-- R60: a read of any width and offset changes no part of the block, and a second one gives the same answer. -/
def Obligations.ReadsHaveNoSideEffects : Prop :=
  ∀ (s : State) (width off : Nat) (rest : List HostEvent),
    ∃ (t u : State) (r : BusReply),
      step (s.setPending (.read width off :: .read width off :: rest)) = .next t ∧ step t = .next u ∧
      u.replies = r :: r :: s.replies ∧ u.pending = rest ∧ keepsAllBut busSide s t ∧ keepsAllBut busSide s u

/-- R55: word `w` of a general register reads as bits `64w+63 : 64w`, and a write to it replaces exactly those 64 bits. -/
def Obligations.RegisterWordWritesReplaceOneWord : Prop :=
  ∀ (s : State) (r : XReg) (w : Fin 4) (d : Lane),
    readGives s (0x0200 + 0x20 * r.val + 8 * w.val) (s.x[r].extractLsb' (64 * w.val) 64) ∧
    writeGives s (0x0200 + 0x20 * r.val + 8 * w.val) d (fun t =>
      (∀ w' : Fin 4, t.x[r].extractLsb' (64 * w'.val) 64 = if w' = w then d else s.x[r].extractLsb' (64 * w'.val) 64) ∧
      keepsAllBut (fun p => p = .x r ∨ busSide p) s t)

/-- R56: the three fields of a point register are written independently, and only bit 0 of the `inf` word is stored. -/
def Obligations.PointRegisterFieldsAreIndependent : Prop :=
  ∀ (s : State) (j : PReg) (w : Fin 4) (d : Lane),
    writeGives s (0x0400 + 0x80 * j.val + 8 * w.val) d (fun t =>
      (∀ w' : Fin 4, t.P[j].x.extractLsb' (64 * w'.val) 64 =
        if w' = w then d else s.P[j].x.extractLsb' (64 * w'.val) 64) ∧
      t.P[j].y = s.P[j].y ∧ t.P[j].inf = s.P[j].inf ∧ keepsAllBut (fun p => p = .P j ∨ busSide p) s t) ∧
    writeGives s (0x0420 + 0x80 * j.val + 8 * w.val) d (fun t =>
      (∀ w' : Fin 4, t.P[j].y.extractLsb' (64 * w'.val) 64 =
        if w' = w then d else s.P[j].y.extractLsb' (64 * w'.val) 64) ∧
      t.P[j].x = s.P[j].x ∧ t.P[j].inf = s.P[j].inf ∧ keepsAllBut (fun p => p = .P j ∨ busSide p) s t) ∧
    writeGives s (0x0440 + 0x80 * j.val) d (fun t =>
      t.P[j].inf = d.getLsbD 0 ∧ t.P[j].x = s.P[j].x ∧ t.P[j].y = s.P[j].y ∧
      keepsAllBut (fun p => p = .P j ∨ busSide p) s t)

/-- R26, R57: a write to a buffer word replaces its eight bytes, low byte first; a write to MLEN stores all 64 bits. -/
def Obligations.BufferWritesReplaceEightBytes : Prop :=
  ∀ (s : State) (d : Lane),
    (s.BUF.wf → ∀ q, 8 * q < s.bufCap → writeGives s (0x1000 + 8 * q) d (fun t =>
      (∀ k < 8, t.BUF.read (8 * q + k) = d.extractLsb' (8 * k) 8) ∧
      keepsAllBut (fun p => busSide p ∨ ∃ k, k < 8 ∧ p = .byte (8 * q + k)) s t)) ∧
    writeGives s 0x0018 d (fun t => t.MLEN = d ∧ keepsAllBut (fun p => p = .mlen ∨ busSide p) s t)

/-- R30, R205: a write to FAULTCLR with bit 0 = 1 sets STATUS to 0, one with bit 0 = 0 does nothing. -/
def Obligations.FaultclrClearsTheFault : Prop :=
  ∀ (s : State) (d : Lane), writeGives s 0x0010 d (fun t =>
    t.STATUS = (if d.getLsbD 0 = true then 0#64 else s.STATUS) ∧
    keepsAllBut (fun p => p = .status ∨ busSide p) s t)

/-- R55, R92: the four writes that a listing's `x<r> <- v` stands for store the 256-bit value. -/
def Obligations.FourWritesStoreARegister : Prop :=
  ∀ (s : State) (r : XReg) (v : XWord) (rest : List HostEvent),
    ∃ t, Host.Core.run Sys2Proof.core 4 (s.setPending (listX r v ++ rest)) = .next t ∧ t.x[r] = v ∧
      t.pending = rest ∧ t.replies = .ok :: .ok :: .ok :: .ok :: s.replies ∧
      keepsAllBut (fun p => p = .x r ∨ busSide p) s t

/-! ### Reset and the machine as a whole -/

/-- R34, R230: the reset event sets STATUS, MLEN and PLEN to 0 whatever it draws; every contents of the lanes, the
registers, the digest and the buffer's bytes can be drawn. That NBLK and the host's side of the bus are kept is the
model's reading (notes/assumptions/5.md). -/
def Obligations.ResetClearsControlStateAndDrawsTheRest : Prop :=
  (∀ (s : State) (draw : ResetDraw) (rest : List HostEvent),
    ∃ t, step (s.setPending (.reset draw :: rest)) = .next t ∧ t.STATUS = 0#64 ∧ t.MLEN = 0#64 ∧ t.PLEN = 0#64 ∧
      t.nblkPred = s.nblkPred ∧ t.pending = rest ∧ t.replies = s.replies) ∧
  ∀ (s : State) (S : Lanes) (x : Vector XWord 16) (P : Vector PointReg 4) (DIG : Vector Byte 32) (f : Nat → Byte)
    (rest : List HostEvent),
    ∃ draw t, step (s.setPending (.reset draw :: rest)) = .next t ∧ t.S = S ∧ t.x = x ∧ t.P = P ∧ t.DIG = DIG ∧
      ∀ a < s.bufCap, t.BUF.read a = f a

/-- R34: the reset state has the values the spec gives (STATUS, MLEN, PLEN) and the block is at rest. -/
def Obligations.ResetStateHasTheSpecifiedValues : Prop :=
  State.reset.STATUS = 0#64 ∧ State.reset.MLEN = 0#64 ∧ State.reset.PLEN = 0#64 ∧ step State.reset = .next State.reset

/-- R25, R26, R29: the invariant holds in the reset state. -/
def Obligations.InvariantHoldsAtReset : Prop := State.reset.Inv

/-- R25, R26, R29, R36 (b), R201: every step keeps the invariant, from every state that has it. -/
def Obligations.StepKeepsTheInvariant : Prop :=
  ∀ s t : State, s.Inv → step s = .next t → t.Inv

/-- R202, R235, R243: every command, and so every step, answers a next state: nothing stops the block. -/
def Obligations.EveryStepAnswersNext : Prop :=
  (∀ (i : Instr) (s : State), answersNext (exec i s)) ∧ ∀ s : State, answersNext (step s)

/-- R216, R235: with no transaction pending the block keeps its state. -/
def Obligations.BlockAtRestKeepsItsState : Prop :=
  ∀ s : State, s.pending = [] → step s = .next s

/-- R29: STATUS changes only by a command that faults, by a write to FAULTCLR with bit 0 = 1, and by reset. -/
def Obligations.StatusChangesOnlyByFaultClearOrReset : Prop :=
  ∀ s t : State, step s = .next t → t.STATUS ≠ s.STATUS →
    (∃ data rest, s.pending = .write 64 0x0000 data :: rest ∧ s.faulted = false ∧ t.faulted = true) ∨
    (∃ data rest, s.pending = .write 64 0x0010 data :: rest ∧ data.getLsbD 0 = true ∧ t.STATUS = 0#64) ∨
    (∃ draw rest, s.pending = .reset draw :: rest ∧ t.STATUS = 0#64)

/-- R203, R208: a step that records a fault is a CMD write; it records the word written and a cause from 1 to 4, and changes
nothing else in the block. -/
def Obligations.FaultsArePrecise : Prop :=
  ∀ s t : State, step s = .next t → s.faulted = false → t.faulted = true →
    ∃ data rest, s.pending = .write 64 0x0000 data :: rest ∧ answered s t rest .ok ∧
      (∃ code, 1 ≤ code ∧ code ≤ 4 ∧ t.STATUS.toNat = 1 + 256 * code + 2 ^ 32 * (data.toNat % 2 ^ 32)) ∧
      keepsAllBut (fun p => p = .status ∨ busSide p) s t

/-- R35, R202: a command writes only the parts the access summary gives it, of the buffer only the bytes its rule names
(R122, R127: from MLEN up to the padded length; R181: the first 64; R183: the first 136), and STATUS on a fault only. -/
def Obligations.CommandsWriteOnlyTheirOwnParts : Prop :=
  ∀ (i : Instr) (s : State), ∃ t, exec i s = .next t ∧ keepsAllBut (mayWrite i s) s t ∧
    (t.STATUS ≠ s.STATUS → t.faulted = true ∧ keepsAllBut (fun p => p = .status) s t)

/-- R22: the lanes change only by KINIT, KF, KABSORB, KHASH and K2ADDR, and by reset. -/
def Obligations.LanesChangeOnlyByKeccakCommands : Prop :=
  ∀ s t : State, step s = .next t → t.S ≠ s.S →
    (∃ draw rest, s.pending = .reset draw :: rest) ∨
    (∃ data rest i, s.pending = .write 64 0x0000 data :: rest ∧ s.faulted = false ∧
      decode (data.extractLsb' 0 32) = .ok i ∧
      (i = .kinit ∨ i = .kf ∨ (∃ b, i = .kabsorb b) ∨ i = .khash ∨ ∃ rk, i = .k2addr rk))

/-- R30: CAP is constant: no step changes NBLK. -/
def Obligations.CapacityNeverChanges : Prop :=
  ∀ s t : State, step s = .next t → t.nblk = s.nblk ∧ t.bufCap = 136 * s.nblk
end

