-- ==== Sys2Proof/Laws/Memory.lean ====
section
/-! SUPPORT. The laws of the message buffer: what a read gives after a write, and that every memory operation keeps the
canonical form and the capacity. -/

namespace Sys2Proof.Machine

@[simp] theorem Memory.read_nil (a : Nat) : Memory.read [] a = Memory.unlisted := rfl

/-- An address below every listed one reads as an unlisted address. -/
theorem Memory.read_of_lt {m : Memory} {a : Nat} (h : ∀ c ∈ m, a < c.1) : Memory.read m a = Memory.unlisted := by
  induction m with
  | nil => rfl
  | cons c m ih =>
    obtain ⟨b, v⟩ := c
    have hb : a < b := h (b, v) (by simp)
    simp only [Memory.read, if_neg (by omega : ¬ b = a)]
    exact ih fun c hc => h c (List.mem_cons_of_mem _ hc)

/-- A read after a write: the value written at that address, the old value elsewhere, in a rising memory. -/
theorem Memory.read_write {m : Memory} (hm : m.Pairwise (fun c d => c.1 < d.1)) (a : Nat) (v : Byte) (a' : Nat) :
    (m.write a v).read a' = if a' = a then v else m.read a' := by
  induction m with
  | nil =>
    by_cases hv : v = Memory.unlisted
    · simp [Memory.write, hv]
    · simp only [Memory.write, if_neg hv, Memory.read]
      simp [eq_comm]
  | cons c m ih =>
    obtain ⟨b, w⟩ := c
    rw [List.pairwise_cons] at hm
    obtain ⟨hlt, hm⟩ := hm
    have ih := ih hm
    by_cases h1 : a < b
    · have hr : Memory.read ((b, w) :: m) a = Memory.unlisted := by
        apply Memory.read_of_lt
        intro c hc
        rcases List.mem_cons.1 hc with rfl | hc
        · exact h1
        · exact lt_trans h1 (hlt c hc)
      by_cases hv : v = Memory.unlisted
      · simp only [Memory.write, if_pos h1, if_pos hv]
        split
        · next h => rw [h, hr, hv]
        · rfl
      · simp only [Memory.write, if_pos h1, if_neg hv]
        rw [Memory.read]
        simp only [eq_comm]
    · by_cases h2 : a = b
      · subst h2
        have hr : Memory.read m a = Memory.unlisted := Memory.read_of_lt fun c hc => hlt c hc
        by_cases hv : v = Memory.unlisted
        · simp only [Memory.write, lt_irrefl, if_false, if_true, if_pos hv]
          by_cases h : a' = a
          · rw [if_pos h, h, hr, hv]
          · rw [if_neg h, Memory.read, if_neg (Ne.symm h)]
        · simp only [Memory.write, lt_irrefl, if_false, if_true, if_neg hv]
          by_cases h : a' = a
          · rw [if_pos h, Memory.read, if_pos h.symm]
          · rw [if_neg h, Memory.read, Memory.read, if_neg (Ne.symm h), if_neg (Ne.symm h)]
      · simp only [Memory.write, if_neg h1, if_neg h2, Memory.read]
        by_cases h : b = a'
        · rw [if_pos h, if_pos h, if_neg (by omega)]
        · rw [if_neg h, if_neg h, ih]

/-- What a write lists: old cells, and the written one. -/
theorem Memory.mem_write {m : Memory} {a : Nat} {v : Byte} {c : Host.Cell} (h : c ∈ m.write a v) :
    c ∈ m ∨ (c = (a, v) ∧ v ≠ Memory.unlisted) := by
  induction m with
  | nil =>
    simp only [Memory.write] at h
    split at h
    · simp at h
    · next hv => exact .inr ⟨by simpa using h, hv⟩
  | cons d m ih =>
    obtain ⟨b, w⟩ := d
    simp only [Memory.write] at h
    split at h
    · split at h
      · exact .inl h
      · next hv =>
        rcases List.mem_cons.1 h with rfl | h
        · exact .inr ⟨rfl, hv⟩
        · exact .inl h
    · split at h
      · split at h
        · exact .inl (List.mem_cons_of_mem _ h)
        · next hv =>
          rcases List.mem_cons.1 h with rfl | h
          · exact .inr ⟨rfl, hv⟩
          · exact .inl (List.mem_cons_of_mem _ h)
      · rcases List.mem_cons.1 h with rfl | h
        · exact .inl (by simp)
        · exact (ih h).imp_left (List.mem_cons_of_mem _)

/-- A write keeps the canonical form. -/
theorem Memory.write_wf {m : Memory} (hm : m.wf) (a : Nat) (v : Byte) : (m.write a v).wf := by
  obtain ⟨hp, hne⟩ := hm
  refine ⟨?_, ?_⟩
  · induction m with
    | nil => simp only [Memory.write]; split <;> simp
    | cons d m ih =>
      obtain ⟨b, w⟩ := d
      have hp' := hp
      rw [List.pairwise_cons] at hp
      obtain ⟨hlt, hp2⟩ := hp
      have hlt' : ∀ c ∈ m, b < c.1 := hlt
      simp only [Memory.write]
      split
      · next h1 =>
        split
        · exact hp'
        · refine List.pairwise_cons.2 ⟨?_, hp'⟩
          intro c hc
          rcases List.mem_cons.1 hc with rfl | hc
          · exact h1
          · exact lt_trans h1 (hlt' c hc)
      · next h1 =>
        split
        · next h2 =>
          split
          · exact hp2
          · exact List.pairwise_cons.2 ⟨fun c hc => h2 ▸ hlt' c hc, hp2⟩
        · next h2 =>
          refine List.pairwise_cons.2 ⟨?_, ih hp2 fun c hc => hne c (List.mem_cons_of_mem _ hc)⟩
          intro c hc
          rcases Memory.mem_write hc with hc | ⟨rfl, _⟩
          · exact hlt' c hc
          · show b < a
            omega
  · intro c hc
    rcases Memory.mem_write hc with hc | ⟨rfl, hv⟩
    · exact hne c hc
    · exact hv

/-- A write below the capacity keeps every listed address below it. -/
theorem Memory.write_below {m : Memory} {cap a : Nat} (hm : m.below cap) (ha : a < cap) (v : Byte) :
    (m.write a v).below cap := by
  intro c hc
  rcases Memory.mem_write hc with hc | ⟨rfl, _⟩
  · exact hm c hc
  · exact ha

theorem Memory.writeBytes_wf {m : Memory} (hm : m.wf) (a : Nat) (bs : List Byte) : (m.writeBytes a bs).wf := by
  induction bs generalizing m a with
  | nil => exact hm
  | cons b bs ih => exact ih (Memory.write_wf hm a b) (a + 1)

theorem Memory.writeBytes_below {m : Memory} {cap : Nat} (hm : m.below cap) (a : Nat) (bs : List Byte)
    (h : a + bs.length ≤ cap) : (m.writeBytes a bs).below cap := by
  induction bs generalizing m a with
  | nil => exact hm
  | cons b bs ih =>
    rw [List.length_cons] at h
    exact ih (Memory.write_below hm (by omega) b) (a + 1) (by omega)

/-- A read after `MemWrite`: the byte of the sequence inside, the old byte outside. -/
theorem Memory.read_writeBytes {m : Memory} (hm : m.wf) (a : Nat) (bs : List Byte) (a' : Nat) :
    (m.writeBytes a bs).read a' =
      if a ≤ a' ∧ a' < a + bs.length then bs.getD (a' - a) 0 else m.read a' := by
  induction bs generalizing m a with
  | nil =>
    simp only [Memory.writeBytes, List.length_nil]
    rw [if_neg (by omega)]
  | cons b bs ih =>
    simp only [Memory.writeBytes, List.length_cons]
    rw [ih (Memory.write_wf hm a b), Memory.read_write hm.1]
    by_cases h : a' = a
    · subst h
      simp
    · by_cases h2 : a + 1 ≤ a' ∧ a' < a + 1 + bs.length
      · rw [if_pos h2, if_pos (by omega), show a' - a = (a' - (a + 1)) + 1 by omega, List.getD_cons_succ]
      · rw [if_neg h2, if_neg h, if_neg (by omega)]

theorem Memory.ofCells_wf {m : Memory} (hm : m.wf) (cap : Nat) (cs : List Host.Cell) :
    (Memory.ofCells cap cs m).wf := by
  induction cs generalizing m with
  | nil => exact hm
  | cons c cs ih =>
    obtain ⟨a, v⟩ := c
    simp only [Memory.ofCells]
    split
    · exact ih (Memory.write_wf hm a v)
    · exact ih hm

theorem Memory.ofCells_below {m : Memory} {cap : Nat} (hm : m.below cap) (cs : List Host.Cell) :
    (Memory.ofCells cap cs m).below cap := by
  induction cs generalizing m with
  | nil => exact hm
  | cons c cs ih =>
    obtain ⟨a, v⟩ := c
    simp only [Memory.ofCells]
    split
    · next h => exact ih (Memory.write_below hm h v)
    · exact ih hm

@[simp] theorem Memory.readBytes_length (m : Memory) (a n : Nat) : (m.readBytes a n).length = n := by
  simp [Memory.readBytes]

/-- A byte of `MemRead`. -/
theorem Memory.readBytes_getD (m : Memory) (a n k : Nat) (h : k < n) : (m.readBytes a n).getD k 0 = m.read (a + k) := by
  simp [Memory.readBytes, h]

/-- `MemRead` depends only on the bytes it reads. -/
theorem Memory.readBytes_congr {m m' : Memory} {a n : Nat} (h : ∀ k, k < n → m.read (a + k) = m'.read (a + k)) :
    m.readBytes a n = m'.readBytes a n := by
  simp only [Memory.readBytes]
  exact List.map_congr_left fun k hk => h k (List.mem_range.1 hk)

/-- Two canonical memories that read alike are the same data. -/
theorem Memory.ext {m m' : Memory} (hm : m.wf) (hm' : m'.wf) (h : ∀ a, m.read a = m'.read a) : m = m' := by
  induction m generalizing m' with
  | nil =>
    cases m' with
    | nil => rfl
    | cons c m' =>
      have h1 := h c.1
      rw [Memory.read_nil, Memory.read, if_pos rfl] at h1
      exact absurd h1.symm (hm'.2 c (by simp))
  | cons c m ih =>
    obtain ⟨b, v⟩ := c
    have hv := hm.2 (b, v) (by simp)
    have hb := h b
    rw [Memory.read, if_pos rfl] at hb
    cases m' with
    | nil => exact absurd hb hv
    | cons d m' =>
      obtain ⟨b', v'⟩ := d
      have hv' := hm'.2 (b', v') (by simp)
      obtain ⟨⟨hlt, hp⟩, hne⟩ := (⟨List.pairwise_cons.1 hm.1, hm.2⟩ : _ ∧ _)
      obtain ⟨⟨hlt', hp'⟩, hne'⟩ := (⟨List.pairwise_cons.1 hm'.1, hm'.2⟩ : _ ∧ _)
      have hb' := h b'
      rw [show Memory.read ((b', v') :: m') b' = v' by simp [Memory.read]] at hb'
      have hbb : b = b' := by
        rcases lt_trichotomy b b' with hl | he | hl
        · exfalso
          rw [Memory.read_of_lt (m := (b', v') :: m')] at hb
          · exact hv hb
          · intro c hc
            rcases List.mem_cons.1 hc with rfl | hc
            · exact hl
            · exact lt_trans hl (hlt' c hc)
        · exact he
        · exfalso
          rw [Memory.read_of_lt (m := (b, v) :: m)] at hb'
          · exact hv' hb'.symm
          · intro c hc
            rcases List.mem_cons.1 hc with rfl | hc
            · exact hl
            · exact lt_trans hl (hlt c hc)
      subst hbb
      rw [Memory.read, if_pos rfl] at hb
      have : m = m' := by
        refine ih ⟨hp, fun c hc => hne c (List.mem_cons_of_mem _ hc)⟩
          ⟨hp', fun c hc => hne' c (List.mem_cons_of_mem _ hc)⟩ fun a => ?_
        by_cases ha : b = a
        · subst ha
          rw [Memory.read_of_lt fun c hc => hlt c hc, Memory.read_of_lt fun c hc => hlt' c hc]
        · have := h a
          rwa [Memory.read, Memory.read, if_neg ha, if_neg ha] at this
      rw [hb, this]

end Sys2Proof.Machine
end

