-- ==== Sys2Proof/Laws/State.lean ====
section
/-! SUPPORT. One lemma per field per update of the state, each true by rfl. -/

namespace Sys2Proof.Machine

variable (s : State)

@[simp] theorem State.setS_S (v : Lanes) : (s.setS v).S = v := rfl
@[simp] theorem State.setS_x (v : Lanes) : (s.setS v).x = s.x := rfl
@[simp] theorem State.setS_P (v : Lanes) : (s.setS v).P = s.P := rfl
@[simp] theorem State.setS_BUF (v : Lanes) : (s.setS v).BUF = s.BUF := rfl
@[simp] theorem State.setS_MLEN (v : Lanes) : (s.setS v).MLEN = s.MLEN := rfl
@[simp] theorem State.setS_PLEN (v : Lanes) : (s.setS v).PLEN = s.PLEN := rfl
@[simp] theorem State.setS_DIG (v : Lanes) : (s.setS v).DIG = s.DIG := rfl
@[simp] theorem State.setS_STATUS (v : Lanes) : (s.setS v).STATUS = s.STATUS := rfl
@[simp] theorem State.setS_nblkPred (v : Lanes) : (s.setS v).nblkPred = s.nblkPred := rfl
@[simp] theorem State.setS_pending (v : Lanes) : (s.setS v).pending = s.pending := rfl
@[simp] theorem State.setS_replies (v : Lanes) : (s.setS v).replies = s.replies := rfl
@[simp] theorem State.setS_faulted (v : Lanes) : (s.setS v).faulted = s.faulted := rfl
@[simp] theorem State.setS_bufCap (v : Lanes) : (s.setS v).bufCap = s.bufCap := rfl
@[simp] theorem State.setS_nblk (v : Lanes) : (s.setS v).nblk = s.nblk := rfl
@[simp] theorem State.setS_paddedLen (v : Lanes) : (s.setS v).paddedLen = s.paddedLen := rfl

@[simp] theorem State.setX_S (r : XReg) (v : XWord) : (s.setX r v).S = s.S := rfl
@[simp] theorem State.setX_x (r : XReg) (v : XWord) : (s.setX r v).x = s.x.set r v := rfl
@[simp] theorem State.setX_P (r : XReg) (v : XWord) : (s.setX r v).P = s.P := rfl
@[simp] theorem State.setX_BUF (r : XReg) (v : XWord) : (s.setX r v).BUF = s.BUF := rfl
@[simp] theorem State.setX_MLEN (r : XReg) (v : XWord) : (s.setX r v).MLEN = s.MLEN := rfl
@[simp] theorem State.setX_PLEN (r : XReg) (v : XWord) : (s.setX r v).PLEN = s.PLEN := rfl
@[simp] theorem State.setX_DIG (r : XReg) (v : XWord) : (s.setX r v).DIG = s.DIG := rfl
@[simp] theorem State.setX_STATUS (r : XReg) (v : XWord) : (s.setX r v).STATUS = s.STATUS := rfl
@[simp] theorem State.setX_nblkPred (r : XReg) (v : XWord) : (s.setX r v).nblkPred = s.nblkPred := rfl
@[simp] theorem State.setX_pending (r : XReg) (v : XWord) : (s.setX r v).pending = s.pending := rfl
@[simp] theorem State.setX_replies (r : XReg) (v : XWord) : (s.setX r v).replies = s.replies := rfl
@[simp] theorem State.setX_faulted (r : XReg) (v : XWord) : (s.setX r v).faulted = s.faulted := rfl
@[simp] theorem State.setX_bufCap (r : XReg) (v : XWord) : (s.setX r v).bufCap = s.bufCap := rfl
@[simp] theorem State.setX_nblk (r : XReg) (v : XWord) : (s.setX r v).nblk = s.nblk := rfl
@[simp] theorem State.setX_paddedLen (r : XReg) (v : XWord) : (s.setX r v).paddedLen = s.paddedLen := rfl

@[simp] theorem State.setP_S (j : PReg) (v : PointReg) : (s.setP j v).S = s.S := rfl
@[simp] theorem State.setP_x (j : PReg) (v : PointReg) : (s.setP j v).x = s.x := rfl
@[simp] theorem State.setP_P (j : PReg) (v : PointReg) : (s.setP j v).P = s.P.set j v := rfl
@[simp] theorem State.setP_BUF (j : PReg) (v : PointReg) : (s.setP j v).BUF = s.BUF := rfl
@[simp] theorem State.setP_MLEN (j : PReg) (v : PointReg) : (s.setP j v).MLEN = s.MLEN := rfl
@[simp] theorem State.setP_PLEN (j : PReg) (v : PointReg) : (s.setP j v).PLEN = s.PLEN := rfl
@[simp] theorem State.setP_DIG (j : PReg) (v : PointReg) : (s.setP j v).DIG = s.DIG := rfl
@[simp] theorem State.setP_STATUS (j : PReg) (v : PointReg) : (s.setP j v).STATUS = s.STATUS := rfl
@[simp] theorem State.setP_nblkPred (j : PReg) (v : PointReg) : (s.setP j v).nblkPred = s.nblkPred := rfl
@[simp] theorem State.setP_pending (j : PReg) (v : PointReg) : (s.setP j v).pending = s.pending := rfl
@[simp] theorem State.setP_replies (j : PReg) (v : PointReg) : (s.setP j v).replies = s.replies := rfl
@[simp] theorem State.setP_faulted (j : PReg) (v : PointReg) : (s.setP j v).faulted = s.faulted := rfl
@[simp] theorem State.setP_bufCap (j : PReg) (v : PointReg) : (s.setP j v).bufCap = s.bufCap := rfl
@[simp] theorem State.setP_nblk (j : PReg) (v : PointReg) : (s.setP j v).nblk = s.nblk := rfl
@[simp] theorem State.setP_paddedLen (j : PReg) (v : PointReg) : (s.setP j v).paddedLen = s.paddedLen := rfl

@[simp] theorem State.setBUF_S (m : Memory) : (s.setBUF m).S = s.S := rfl
@[simp] theorem State.setBUF_x (m : Memory) : (s.setBUF m).x = s.x := rfl
@[simp] theorem State.setBUF_P (m : Memory) : (s.setBUF m).P = s.P := rfl
@[simp] theorem State.setBUF_BUF (m : Memory) : (s.setBUF m).BUF = m := rfl
@[simp] theorem State.setBUF_MLEN (m : Memory) : (s.setBUF m).MLEN = s.MLEN := rfl
@[simp] theorem State.setBUF_PLEN (m : Memory) : (s.setBUF m).PLEN = s.PLEN := rfl
@[simp] theorem State.setBUF_DIG (m : Memory) : (s.setBUF m).DIG = s.DIG := rfl
@[simp] theorem State.setBUF_STATUS (m : Memory) : (s.setBUF m).STATUS = s.STATUS := rfl
@[simp] theorem State.setBUF_nblkPred (m : Memory) : (s.setBUF m).nblkPred = s.nblkPred := rfl
@[simp] theorem State.setBUF_pending (m : Memory) : (s.setBUF m).pending = s.pending := rfl
@[simp] theorem State.setBUF_replies (m : Memory) : (s.setBUF m).replies = s.replies := rfl
@[simp] theorem State.setBUF_faulted (m : Memory) : (s.setBUF m).faulted = s.faulted := rfl
@[simp] theorem State.setBUF_bufCap (m : Memory) : (s.setBUF m).bufCap = s.bufCap := rfl
@[simp] theorem State.setBUF_nblk (m : Memory) : (s.setBUF m).nblk = s.nblk := rfl
@[simp] theorem State.setBUF_paddedLen (m : Memory) : (s.setBUF m).paddedLen = s.paddedLen := rfl

@[simp] theorem State.setMLEN_S (v : Lane) : (s.setMLEN v).S = s.S := rfl
@[simp] theorem State.setMLEN_x (v : Lane) : (s.setMLEN v).x = s.x := rfl
@[simp] theorem State.setMLEN_P (v : Lane) : (s.setMLEN v).P = s.P := rfl
@[simp] theorem State.setMLEN_BUF (v : Lane) : (s.setMLEN v).BUF = s.BUF := rfl
@[simp] theorem State.setMLEN_MLEN (v : Lane) : (s.setMLEN v).MLEN = v := rfl
@[simp] theorem State.setMLEN_PLEN (v : Lane) : (s.setMLEN v).PLEN = s.PLEN := rfl
@[simp] theorem State.setMLEN_DIG (v : Lane) : (s.setMLEN v).DIG = s.DIG := rfl
@[simp] theorem State.setMLEN_STATUS (v : Lane) : (s.setMLEN v).STATUS = s.STATUS := rfl
@[simp] theorem State.setMLEN_nblkPred (v : Lane) : (s.setMLEN v).nblkPred = s.nblkPred := rfl
@[simp] theorem State.setMLEN_pending (v : Lane) : (s.setMLEN v).pending = s.pending := rfl
@[simp] theorem State.setMLEN_replies (v : Lane) : (s.setMLEN v).replies = s.replies := rfl
@[simp] theorem State.setMLEN_faulted (v : Lane) : (s.setMLEN v).faulted = s.faulted := rfl
@[simp] theorem State.setMLEN_bufCap (v : Lane) : (s.setMLEN v).bufCap = s.bufCap := rfl
@[simp] theorem State.setMLEN_nblk (v : Lane) : (s.setMLEN v).nblk = s.nblk := rfl

@[simp] theorem State.setPLEN_S (v : Lane) : (s.setPLEN v).S = s.S := rfl
@[simp] theorem State.setPLEN_x (v : Lane) : (s.setPLEN v).x = s.x := rfl
@[simp] theorem State.setPLEN_P (v : Lane) : (s.setPLEN v).P = s.P := rfl
@[simp] theorem State.setPLEN_BUF (v : Lane) : (s.setPLEN v).BUF = s.BUF := rfl
@[simp] theorem State.setPLEN_MLEN (v : Lane) : (s.setPLEN v).MLEN = s.MLEN := rfl
@[simp] theorem State.setPLEN_PLEN (v : Lane) : (s.setPLEN v).PLEN = v := rfl
@[simp] theorem State.setPLEN_DIG (v : Lane) : (s.setPLEN v).DIG = s.DIG := rfl
@[simp] theorem State.setPLEN_STATUS (v : Lane) : (s.setPLEN v).STATUS = s.STATUS := rfl
@[simp] theorem State.setPLEN_nblkPred (v : Lane) : (s.setPLEN v).nblkPred = s.nblkPred := rfl
@[simp] theorem State.setPLEN_pending (v : Lane) : (s.setPLEN v).pending = s.pending := rfl
@[simp] theorem State.setPLEN_replies (v : Lane) : (s.setPLEN v).replies = s.replies := rfl
@[simp] theorem State.setPLEN_faulted (v : Lane) : (s.setPLEN v).faulted = s.faulted := rfl
@[simp] theorem State.setPLEN_bufCap (v : Lane) : (s.setPLEN v).bufCap = s.bufCap := rfl
@[simp] theorem State.setPLEN_nblk (v : Lane) : (s.setPLEN v).nblk = s.nblk := rfl
@[simp] theorem State.setPLEN_paddedLen (v : Lane) : (s.setPLEN v).paddedLen = s.paddedLen := rfl

@[simp] theorem State.setDIG_S (v : Vector Byte 32) : (s.setDIG v).S = s.S := rfl
@[simp] theorem State.setDIG_x (v : Vector Byte 32) : (s.setDIG v).x = s.x := rfl
@[simp] theorem State.setDIG_P (v : Vector Byte 32) : (s.setDIG v).P = s.P := rfl
@[simp] theorem State.setDIG_BUF (v : Vector Byte 32) : (s.setDIG v).BUF = s.BUF := rfl
@[simp] theorem State.setDIG_MLEN (v : Vector Byte 32) : (s.setDIG v).MLEN = s.MLEN := rfl
@[simp] theorem State.setDIG_PLEN (v : Vector Byte 32) : (s.setDIG v).PLEN = s.PLEN := rfl
@[simp] theorem State.setDIG_DIG (v : Vector Byte 32) : (s.setDIG v).DIG = v := rfl
@[simp] theorem State.setDIG_STATUS (v : Vector Byte 32) : (s.setDIG v).STATUS = s.STATUS := rfl
@[simp] theorem State.setDIG_nblkPred (v : Vector Byte 32) : (s.setDIG v).nblkPred = s.nblkPred := rfl
@[simp] theorem State.setDIG_pending (v : Vector Byte 32) : (s.setDIG v).pending = s.pending := rfl
@[simp] theorem State.setDIG_replies (v : Vector Byte 32) : (s.setDIG v).replies = s.replies := rfl
@[simp] theorem State.setDIG_faulted (v : Vector Byte 32) : (s.setDIG v).faulted = s.faulted := rfl
@[simp] theorem State.setDIG_bufCap (v : Vector Byte 32) : (s.setDIG v).bufCap = s.bufCap := rfl
@[simp] theorem State.setDIG_nblk (v : Vector Byte 32) : (s.setDIG v).nblk = s.nblk := rfl
@[simp] theorem State.setDIG_paddedLen (v : Vector Byte 32) : (s.setDIG v).paddedLen = s.paddedLen := rfl

@[simp] theorem State.setSTATUS_S (v : Lane) : (s.setSTATUS v).S = s.S := rfl
@[simp] theorem State.setSTATUS_x (v : Lane) : (s.setSTATUS v).x = s.x := rfl
@[simp] theorem State.setSTATUS_P (v : Lane) : (s.setSTATUS v).P = s.P := rfl
@[simp] theorem State.setSTATUS_BUF (v : Lane) : (s.setSTATUS v).BUF = s.BUF := rfl
@[simp] theorem State.setSTATUS_MLEN (v : Lane) : (s.setSTATUS v).MLEN = s.MLEN := rfl
@[simp] theorem State.setSTATUS_PLEN (v : Lane) : (s.setSTATUS v).PLEN = s.PLEN := rfl
@[simp] theorem State.setSTATUS_DIG (v : Lane) : (s.setSTATUS v).DIG = s.DIG := rfl
@[simp] theorem State.setSTATUS_STATUS (v : Lane) : (s.setSTATUS v).STATUS = v := rfl
@[simp] theorem State.setSTATUS_nblkPred (v : Lane) : (s.setSTATUS v).nblkPred = s.nblkPred := rfl
@[simp] theorem State.setSTATUS_pending (v : Lane) : (s.setSTATUS v).pending = s.pending := rfl
@[simp] theorem State.setSTATUS_replies (v : Lane) : (s.setSTATUS v).replies = s.replies := rfl
@[simp] theorem State.setSTATUS_bufCap (v : Lane) : (s.setSTATUS v).bufCap = s.bufCap := rfl
@[simp] theorem State.setSTATUS_nblk (v : Lane) : (s.setSTATUS v).nblk = s.nblk := rfl
@[simp] theorem State.setSTATUS_paddedLen (v : Lane) : (s.setSTATUS v).paddedLen = s.paddedLen := rfl

@[simp] theorem State.setPending_S (es : List HostEvent) : (s.setPending es).S = s.S := rfl
@[simp] theorem State.setPending_x (es : List HostEvent) : (s.setPending es).x = s.x := rfl
@[simp] theorem State.setPending_P (es : List HostEvent) : (s.setPending es).P = s.P := rfl
@[simp] theorem State.setPending_BUF (es : List HostEvent) : (s.setPending es).BUF = s.BUF := rfl
@[simp] theorem State.setPending_MLEN (es : List HostEvent) : (s.setPending es).MLEN = s.MLEN := rfl
@[simp] theorem State.setPending_PLEN (es : List HostEvent) : (s.setPending es).PLEN = s.PLEN := rfl
@[simp] theorem State.setPending_DIG (es : List HostEvent) : (s.setPending es).DIG = s.DIG := rfl
@[simp] theorem State.setPending_STATUS (es : List HostEvent) : (s.setPending es).STATUS = s.STATUS := rfl
@[simp] theorem State.setPending_nblkPred (es : List HostEvent) : (s.setPending es).nblkPred = s.nblkPred := rfl
@[simp] theorem State.setPending_pending (es : List HostEvent) : (s.setPending es).pending = es := rfl
@[simp] theorem State.setPending_replies (es : List HostEvent) : (s.setPending es).replies = s.replies := rfl
@[simp] theorem State.setPending_faulted (es : List HostEvent) : (s.setPending es).faulted = s.faulted := rfl
@[simp] theorem State.setPending_bufCap (es : List HostEvent) : (s.setPending es).bufCap = s.bufCap := rfl
@[simp] theorem State.setPending_nblk (es : List HostEvent) : (s.setPending es).nblk = s.nblk := rfl
@[simp] theorem State.setPending_paddedLen (es : List HostEvent) : (s.setPending es).paddedLen = s.paddedLen := rfl

@[simp] theorem State.pushReply_S (r : BusReply) : (s.pushReply r).S = s.S := rfl
@[simp] theorem State.pushReply_x (r : BusReply) : (s.pushReply r).x = s.x := rfl
@[simp] theorem State.pushReply_P (r : BusReply) : (s.pushReply r).P = s.P := rfl
@[simp] theorem State.pushReply_BUF (r : BusReply) : (s.pushReply r).BUF = s.BUF := rfl
@[simp] theorem State.pushReply_MLEN (r : BusReply) : (s.pushReply r).MLEN = s.MLEN := rfl
@[simp] theorem State.pushReply_PLEN (r : BusReply) : (s.pushReply r).PLEN = s.PLEN := rfl
@[simp] theorem State.pushReply_DIG (r : BusReply) : (s.pushReply r).DIG = s.DIG := rfl
@[simp] theorem State.pushReply_STATUS (r : BusReply) : (s.pushReply r).STATUS = s.STATUS := rfl
@[simp] theorem State.pushReply_nblkPred (r : BusReply) : (s.pushReply r).nblkPred = s.nblkPred := rfl
@[simp] theorem State.pushReply_pending (r : BusReply) : (s.pushReply r).pending = s.pending := rfl
@[simp] theorem State.pushReply_replies (r : BusReply) : (s.pushReply r).replies = r :: s.replies := rfl
@[simp] theorem State.pushReply_faulted (r : BusReply) : (s.pushReply r).faulted = s.faulted := rfl
@[simp] theorem State.pushReply_bufCap (r : BusReply) : (s.pushReply r).bufCap = s.bufCap := rfl
@[simp] theorem State.pushReply_nblk (r : BusReply) : (s.pushReply r).nblk = s.nblk := rfl
@[simp] theorem State.pushReply_paddedLen (r : BusReply) : (s.pushReply r).paddedLen = s.paddedLen := rfl

@[simp] theorem State.resetBy_S (d : ResetDraw) : (s.resetBy d).S = d.S := rfl
@[simp] theorem State.resetBy_x (d : ResetDraw) : (s.resetBy d).x = d.x := rfl
@[simp] theorem State.resetBy_P (d : ResetDraw) : (s.resetBy d).P = d.P := rfl
@[simp] theorem State.resetBy_BUF (d : ResetDraw) : (s.resetBy d).BUF = Memory.ofCells s.bufCap d.BUF [] := rfl
@[simp] theorem State.resetBy_MLEN (d : ResetDraw) : (s.resetBy d).MLEN = 0 := rfl
@[simp] theorem State.resetBy_PLEN (d : ResetDraw) : (s.resetBy d).PLEN = 0 := rfl
@[simp] theorem State.resetBy_DIG (d : ResetDraw) : (s.resetBy d).DIG = d.DIG := rfl
@[simp] theorem State.resetBy_STATUS (d : ResetDraw) : (s.resetBy d).STATUS = 0 := rfl
@[simp] theorem State.resetBy_nblkPred (d : ResetDraw) : (s.resetBy d).nblkPred = s.nblkPred := rfl
@[simp] theorem State.resetBy_pending (d : ResetDraw) : (s.resetBy d).pending = s.pending := rfl
@[simp] theorem State.resetBy_replies (d : ResetDraw) : (s.resetBy d).replies = s.replies := rfl
@[simp] theorem State.resetBy_bufCap (d : ResetDraw) : (s.resetBy d).bufCap = s.bufCap := rfl

end Sys2Proof.Machine
end

