-- ==== Sys2Proof/Laws/Ops.lean ====
section
/-! SUPPORT. The laws of the byte-order and lane helpers, of STATUS and of taking a fault. -/

namespace Sys2Proof.Machine

/-! ### Bytes and words -/

/-- Byte `k` of a lane read little-endian from a byte sequence is the sequence's byte (R12). -/
theorem le64Byte_le64 (bs : List Byte) (i : Nat) {k : Nat} (hk : k < 8) :
    le64Byte (le64 bs i) k = bs.getD (i + k) 0 := by
  apply BitVec.eq_of_getLsbD_eq
  intro j hj
  simp only [le64Byte, le64, BitVec.getLsbD_extractLsb', BitVec.getLsbD_append, hj, decide_true, Bool.true_and]
  interval_cases k <;> (repeat' split) <;> first | omega | (congr 1; omega)

/-- A lane is its own bytes read back (R12: `le64_bytes` is the inverse of `le64`). -/
theorem lane_eq_of_bytes {v w : Lane} (h : ∀ k, k < 8 → le64Byte v k = le64Byte w k) : v = w := by
  apply BitVec.eq_of_getLsbD_eq
  intro i hi
  have := congrArg (fun b => b.getLsbD (i % 8)) (h (i / 8) (by omega))
  simpa [le64Byte, BitVec.getLsbD_extractLsb', Nat.mod_lt, Nat.div_add_mod] using this

@[simp] theorem le64Bytes_length (v : Lane) : (le64Bytes v).length = 8 := by simp [le64Bytes]

theorem le64Bytes_getD (v : Lane) {k : Nat} (hk : k < 8) : (le64Bytes v).getD k 0 = le64Byte v k := by
  simp [le64Bytes, hk]

theorem le64_le64Bytes (v : Lane) : le64 (le64Bytes v) 0 = v :=
  lane_eq_of_bytes fun k hk => by rw [le64Byte_le64 _ _ hk, Nat.zero_add, le64Bytes_getD v hk]

@[simp] theorem be256Bytes_length (v : XWord) : (be256Bytes v).length = 32 := by simp [be256Bytes]

theorem be256Bytes_getD (v : XWord) {k : Nat} (hk : k < 32) : (be256Bytes v).getD k 0 = be256Byte v k := by
  simp [be256Bytes, hk]

/-- Word `w'` of a value with word `w` replaced (R55). -/
theorem getDword_setDword (v : XWord) (d : Lane) {w w' : Nat} (hw' : w' < 4) :
    getDword (setDword v w d) w' = if w' = w then d else getDword v w' := by
  apply BitVec.eq_of_getLsbD_eq
  intro i hi
  have key : ∀ (a b c e : Lane), (a ++ b ++ c ++ e).extractLsb' (64 * w') 64 =
      (if w' = 0 then e else if w' = 1 then c else if w' = 2 then b else a) := by
    intro a b c e
    apply BitVec.eq_of_getLsbD_eq
    intro j hj
    rw [BitVec.getLsbD_extractLsb', decide_eq_true hj, Bool.true_and, BitVec.getLsbD_append, BitVec.getLsbD_append,
      BitVec.getLsbD_append]
    interval_cases w' <;> simp only [reduceIte, OfNat.ofNat_ne_zero, OfNat.ofNat_ne_one, one_ne_zero, Nat.reduceEqDiff]
      <;> (repeat' split) <;> first | omega | exact congrArg _ (by omega)
  unfold setDword
  rw [show ∀ u : XWord, getDword u w' = u.extractLsb' (64 * w') 64 from fun _ => rfl]
  rw [key]
  interval_cases w' <;> simp [eq_comm]

/-- A 256-bit value is its four words (R55). -/
theorem xword_eq_of_dwords {u v : XWord} (h : ∀ w, w < 4 → getDword u w = getDword v w) : u = v := by
  apply BitVec.eq_of_getLsbD_eq
  intro i hi
  have := congrArg (fun b => b.getLsbD (i % 64)) (h (i / 64) (by omega))
  simpa [getDword, BitVec.getLsbD_extractLsb', Nat.mod_lt, Nat.div_add_mod] using this

/-! ### The number of bits -/

theorem lt_two_pow_bitlen (k : Nat) : k < 2 ^ bitlen k := by
  unfold bitlen
  split
  · next h => subst h; decide
  · exact Nat.lt_log2_self

theorem two_pow_bitlen_le {k : Nat} (h : k ≠ 0) : 2 ^ (bitlen k - 1) ≤ k := by
  unfold bitlen
  rw [if_neg h, Nat.add_sub_cancel]
  exact Nat.log2_self_le h

@[simp] theorem bitlen_zero : bitlen 0 = 0 := rfl

theorem bitlen_pos {k : Nat} (h : k ≠ 0) : bitlen k = Nat.log2 k + 1 := if_neg h

/-! ### STATUS and faults -/

theorem statusWord_toNat (c : FaultCause) (w : CmdWord) :
    (statusWord c w).toNat = 1 + 256 * c.code.toNat + 2 ^ 32 * w.toNat := by
  have h2 : c.code.toNat < 256 := c.code.isLt
  have e : (0#7 ++ 1#1 : BitVec 8).toNat = 1 := rfl
  have s1 : (c.code ++ (0#7 ++ 1#1) : BitVec 16).toNat = 256 * c.code.toNat + 1 := by
    rw [BitVec.toNat_append, e, Nat.shiftLeft_eq, Nat.mul_comm, ← Nat.two_pow_add_eq_or_of_lt (by decide)]
  have s2 : (0#16 ++ (c.code ++ (0#7 ++ 1#1)) : BitVec 32).toNat = 256 * c.code.toNat + 1 := by
    rw [BitVec.toNat_append, s1]
    simp
  rw [statusWord, BitVec.toNat_append, s2, Nat.shiftLeft_eq, Nat.mul_comm w.toNat,
    ← Nat.two_pow_add_eq_or_of_lt (by omega)]
  omega

@[simp] theorem statusWord_fault (c : FaultCause) (w : CmdWord) : (statusWord c w).getLsbD 0 = true := by
  simp only [statusWord, BitVec.getLsbD_append]
  rw [if_pos (by omega), if_pos (by omega), if_pos (by omega), if_pos (by omega)]
  rfl

@[simp] theorem statusWord_cause (c : FaultCause) (w : CmdWord) : (statusWord c w).extractLsb' 8 8 = c.code := by
  apply BitVec.eq_of_getLsbD_eq
  intro i hi
  simp only [statusWord, BitVec.getLsbD_extractLsb', BitVec.getLsbD_append, hi, decide_true, Bool.true_and]
  rw [if_pos (by omega), if_pos (by omega), if_neg (by omega)]
  congr 1
  omega

@[simp] theorem statusWord_finfo (c : FaultCause) (w : CmdWord) : (statusWord c w).extractLsb' 32 32 = w := by
  apply BitVec.eq_of_getLsbD_eq
  intro i hi
  simp only [statusWord, BitVec.getLsbD_extractLsb', BitVec.getLsbD_append, hi, decide_true, Bool.true_and]
  rw [if_neg (by omega)]
  congr 1
  omega

@[simp] theorem statusWord_low (c : FaultCause) (w : CmdWord) : (statusWord c w).extractLsb' 1 7 = 0 := by
  apply BitVec.eq_of_getLsbD_eq
  intro i hi
  simp only [statusWord, BitVec.getLsbD_extractLsb', BitVec.getLsbD_append, hi, decide_true, Bool.true_and]
  rw [if_pos (by omega), if_pos (by omega), if_pos (by omega), if_neg (by omega)]
  simp

@[simp] theorem statusWord_high (c : FaultCause) (w : CmdWord) : (statusWord c w).extractLsb' 16 16 = 0 := by
  apply BitVec.eq_of_getLsbD_eq
  intro i hi
  simp only [statusWord, BitVec.getLsbD_extractLsb', BitVec.getLsbD_append, hi, decide_true, Bool.true_and]
  rw [if_pos (by omega), if_neg (by omega)]
  simp

theorem FaultCause.code_toNat (c : FaultCause) : 1 ≤ c.code.toNat ∧ c.code.toNat ≤ 4 := by cases c <;> decide

@[simp] theorem State.raise_faulted (s : State) (c : FaultCause) (w : CmdWord) : (s.raise c w).faulted = true :=
  statusWord_fault c w

@[simp] theorem State.clearFault_faulted (s : State) : s.clearFault.faulted = false := by
  simp [State.clearFault, State.faulted]

/-- BUF_CAP is at least one block (R8). -/
theorem State.le_bufCap (s : State) : 136 ≤ s.bufCap := by
  simp only [State.bufCap, State.nblk, Config.rateBytes]
  omega

/-- BUF_CAP is NBLK blocks, NBLK between 1 and 65536 (R8). -/
theorem State.nblk_bounds (s : State) : 1 ≤ s.nblk ∧ s.nblk ≤ 65536 := by
  have := s.nblkPred.isLt
  simp only [State.nblk, Config.nblkBound] at *
  omega

end Sys2Proof.Machine
end

