-- ==== Sys2Proof/Laws/Bus.lean ====
section
/-! SUPPORT. What the bus operations do (R51 to R60): where each location stands in the map, and what a step can be. -/

namespace Sys2Proof.Machine

/-! ### Where each location stands (R53, R55 to R57) -/

theorem locate_cmd (cap : Nat) : locate cap 0x0000 = some .cmd := rfl
theorem locate_status (cap : Nat) : locate cap 0x0008 = some .status := rfl
theorem locate_faultclr (cap : Nat) : locate cap 0x0010 = some .faultclr := rfl
theorem locate_mlen (cap : Nat) : locate cap 0x0018 = some .mlen := rfl
theorem locate_plen (cap : Nat) : locate cap 0x0020 = some .plen := rfl
theorem locate_cap (cap : Nat) : locate cap 0x0028 = some .cap := rfl

theorem locate_dig (cap : Nat) (j : Fin 4) : locate cap (0x0040 + 8 * j.val) = some (.dig j) := by
  have h : ∀ j : Fin 4, locate cap (0x0040 + 8 * j.val) = some (.dig j) := by
    intro j
    fin_cases j <;> rfl
  exact h j

theorem locate_lane (cap : Nat) (i : Fin 25) : locate cap (0x0100 + 8 * i.val) = some (.lane i) := by
  have := i.isLt
  have e : Fin.ofNat 25 ((0x0100 + 8 * i.val - 0x0100) / 8) = i := by
    ext
    simp only [Fin.val_ofNat]
    omega
  simp (disch := omega) only [locate, if_neg, if_pos, e]

theorem locate_xword (cap : Nat) (r : XReg) (w : Fin 4) :
    locate cap (0x0200 + 0x20 * r.val + 8 * w.val) = some (.xword r w) := by
  have := r.isLt
  have := w.isLt
  have e1 : Fin.ofNat 16 ((0x0200 + 0x20 * r.val + 8 * w.val - 0x0200) / 0x20) = r := by
    ext
    simp only [Fin.val_ofNat]
    omega
  have e2 : Fin.ofNat 4 ((0x0200 + 0x20 * r.val + 8 * w.val - 0x0200) % 0x20 / 8) = w := by
    ext
    simp only [Fin.val_ofNat]
    omega
  simp (disch := omega) only [locate, if_neg, if_pos, e1, e2]

/-- An offset in the point registers, by its register and its place in it (R56). -/
theorem locate_point (cap : Nat) (j : PReg) (o : Nat) (ho : o < 0x80) (h8 : o % 8 = 0) :
    locate cap (0x0400 + 0x80 * j.val + o) = locatePoint j o := by
  have := j.isLt
  have e1 : Fin.ofNat 4 ((0x0400 + 0x80 * j.val + o - 0x0400) / 0x80) = j := by
    ext
    simp only [Fin.val_ofNat]
    omega
  have e2 : (0x0400 + 0x80 * j.val + o - 0x0400) % 0x80 = o := by omega
  simp (disch := omega) only [locate, if_neg, if_pos, e1, e2]

theorem locate_pxword (cap : Nat) (j : PReg) (w : Fin 4) :
    locate cap (0x0400 + 0x80 * j.val + 8 * w.val) = some (.pxword j w) := by
  have := w.isLt
  rw [locate_point cap j _ (by omega) (by omega), locatePoint, if_pos (by omega)]
  congr 2
  ext
  simp only [Fin.val_ofNat]
  omega

theorem locate_pyword (cap : Nat) (j : PReg) (w : Fin 4) :
    locate cap (0x0420 + 0x80 * j.val + 8 * w.val) = some (.pyword j w) := by
  have := w.isLt
  rw [show 0x0420 + 0x80 * j.val + 8 * w.val = 0x0400 + 0x80 * j.val + (0x20 + 8 * w.val) by omega,
    locate_point cap j _ (by omega) (by omega), locatePoint, if_neg (by omega), if_pos (by omega)]
  congr 2
  ext
  simp only [Fin.val_ofNat]
  omega

theorem locate_pinf (cap : Nat) (j : PReg) : locate cap (0x0440 + 0x80 * j.val) = some (.pinf j) := by
  rw [show 0x0440 + 0x80 * j.val = 0x0400 + 0x80 * j.val + 0x40 by omega, locate_point cap j _ (by omega) (by omega)]
  rfl

theorem locate_bufword (cap q : Nat) (h : 8 * q < cap) : locate cap (0x1000 + 8 * q) = some (.bufword q) := by
  simp (disch := omega) only [locate, if_neg, if_pos]
  congr 2
  omega

/-- The offset of a location (R53, R55 to R57). -/
def Loc.offset : Loc → Nat
  | .cmd => 0x0000
  | .status => 0x0008
  | .faultclr => 0x0010
  | .mlen => 0x0018
  | .plen => 0x0020
  | .cap => 0x0028
  | .dig j => 0x0040 + 8 * j.val
  | .lane i => 0x0100 + 8 * i.val
  | .xword r w => 0x0200 + 0x20 * r.val + 8 * w.val
  | .pxword j w => 0x0400 + 0x80 * j.val + 8 * w.val
  | .pyword j w => 0x0420 + 0x80 * j.val + 8 * w.val
  | .pinf j => 0x0440 + 0x80 * j.val
  | .bufword q => 0x1000 + 8 * q

/-- A location inside a buffer of `cap` bytes. -/
def Loc.inside (cap : Nat) : Loc → Prop
  | .bufword q => 8 * q < cap
  | _ => True

theorem locatePoint_some {j : PReg} {o : Nat} {l : Loc} (h : locatePoint j o = some l) (h8 : o % 8 = 0) (cap : Nat) :
    l.offset = 0x0400 + 0x80 * j.val + o ∧ l.inside cap := by
  unfold locatePoint at h
  split_ifs at h with h1 h2 h3 <;> injection h with h <;> subst h <;>
    simp only [Loc.offset, Loc.inside, Fin.val_ofNat, and_true] <;> omega

/-- An offset is mapped when it is aligned and some location stands there (R53, R59). -/
theorem locate_offset {cap : Nat} (l : Loc) (h : l.inside cap) : locate cap l.offset = some l := by
  cases l with
  | cmd => rfl
  | status => rfl
  | faultclr => rfl
  | mlen => rfl
  | plen => rfl
  | cap => rfl
  | dig j => exact locate_dig cap j
  | lane i => exact locate_lane cap i
  | xword r w => exact locate_xword cap r w
  | pxword j w => exact locate_pxword cap j w
  | pyword j w => exact locate_pyword cap j w
  | pinf j => exact locate_pinf cap j
  | bufword q => exact locate_bufword cap q h

/-- A fact about what a branching map gives, branch by branch. -/
theorem ite_some_elim {α : Type} {c Q : Prop} [Decidable c] {a b : Option α} {l : α} (ha : c → a = some l → Q)
    (hb : ¬ c → b = some l → Q) : (if c then a else b) = some l → Q := by
  by_cases hc : c
  · rw [if_pos hc]
    exact ha hc
  · rw [if_neg hc]
    exact hb hc

/-- What the map gives stands at that offset, and inside the buffer (R53): the converse of the lemmas above. -/
theorem locate_some {cap off : Nat} {l : Loc} : locate cap off = some l → l.offset = off ∧ l.inside cap := by
  rw [locate]
  repeat' with_reducible refine ite_some_elim (fun _ => ?_) fun _ => ?_
  all_goals
    intro h
    first
      | simp only [reduceCtorEq] at h
      | (obtain ⟨ho, hi⟩ := locatePoint_some h (by omega) cap
         refine ⟨ho.trans ?_, hi⟩
         simp only [Fin.val_ofNat]
         omega)
      | (injection h with h
         subst h
         simp only [Loc.offset, Loc.inside, Fin.val_ofNat, and_true]
         omega)

/-- An offset that the map leaves out is the offset of no location (R53, R59). -/
theorem locate_none {cap off : Nat} (h : locate cap off = none) (l : Loc) (hl : l.inside cap) :
    l.offset ≠ off := by
  intro e
  rw [← e, locate_offset l hl] at h
  exact absurd h (by simp)

/-! ### What a bus access and a step answer -/

/-- A read of a mapped location answers the value it holds, or BusError where it may not be read (R51, R59). -/
theorem State.busRead_located (s : State) {off : Nat} {l : Loc} (h : locate s.bufCap off = some l) :
    s.busRead 64 off = (match s.readLoc l with | none => .busError | some v => .data v) := by
  cases hr : s.readLoc l <;> simp [State.busRead, h, hr]

/-- A step with a transaction pending is that event on the state with it taken off (R65). -/
theorem step_of_pending {s : State} {e : HostEvent} {rest : List HostEvent} (h : s.pending = e :: rest) :
    step s = (s.setPending rest).hostEvent e := by
  rw [step, State.stepEvent, h]

/-- A read step (R60). -/
theorem step_read (s : State) (width off : Nat) (rest : List HostEvent) :
    step (s.setPending (.read width off :: rest)) =
      .next ((s.setPending rest).pushReply (s.busRead width off)) := rfl

/-- The CMD write (R58). -/
theorem step_cmd {s : State} {d : Lane} {rest : List HostEvent} (h : s.pending = .write 64 0x0000 d :: rest) :
    step s = withReply .ok ((s.setPending rest).runWord (d.setWidth 32)) := by
  rw [step_of_pending h, State.hostEvent, State.busWrite, if_neg (by decide), locate_cmd]

/-- A write to a plain location (R53, R55 to R57). -/
theorem State.busWrite_located (s : State) {off : Nat} {l : Loc} {t : State} (d : Lane)
    (h : locate s.bufCap off = some l) (hw : s.writeLoc d l = some t) :
    s.busWrite 64 off d = .next (t.pushReply .ok) := by
  rw [State.busWrite, if_neg (by decide), h]
  cases l <;> simp_all [State.writeLoc]

/-- The answer is recorded on whatever state a command leaves (R58). -/
@[simp] theorem withReply_next (r : BusReply) (s : State) : withReply r (.next s) = .next (s.pushReply r) := rfl

/-- What the CMD write of a word can do (R204, R206): dropped, illegal, or the decoded command. -/
theorem State.runWord_cases (s : State) (w : CmdWord) :
    (s.faulted = true ∧ s.runWord w = .next s) ∨
    (s.faulted = false ∧ ∃ v, decode w = .error (.illegalCommand v) ∧
      s.runWord w = .next (s.raise .illegalCommand v)) ∨
    (s.faulted = false ∧ ∃ i, decode w = .ok i ∧ s.runWord w = exec i s) := by
  cases hf : s.faulted with
  | true => exact .inl ⟨rfl, by rw [State.runWord, if_pos hf]⟩
  | false =>
    right
    cases hd : decode w with
    | error e =>
      cases e with
      | illegalCommand v => exact .inl ⟨rfl, v, rfl, by rw [State.runWord, hf, hd]; rfl⟩
    | ok i => exact .inr ⟨rfl, i, rfl, by rw [State.runWord, hf, hd]; rfl⟩

/-- The word a rejection names is the word that was decoded (R86). -/
theorem decode_error {w v : CmdWord} (h : decode w = .error (.illegalCommand v)) : v = w := by
  rw [decode] at h
  split at h
  · exact absurd h (by simp)
  · injection h with h
    injection h with h
    exact h.symm

end Sys2Proof.Machine
end

