-- ==== Sys2Proof/Laws/Field.lean ====
section
/-! SUPPORT. What the modular functions compute: the loop of modpow is the power. -/

namespace Sys2Proof.Machine

/-- The invariant of the loop (R142: `result * base^e` stays congruent to the power). -/
theorem modpowLoop_eq (m : Nat) (fuel r b e : Nat) (he : e < 2 ^ fuel) (hr : r % m = r) :
    modpowLoop m fuel r b e = r * b ^ e % m := by
  induction fuel generalizing r b e with
  | zero =>
    have : e = 0 := by omega
    subst this
    simp [modpowLoop, hr]
  | succ n ih =>
    rw [modpowLoop]
    split
    · next h => subst h; simp [hr]
    · next h =>
      have hlt : e / 2 < 2 ^ n := by
        rw [Nat.div_lt_iff_lt_mul (by decide), ← pow_succ]
        exact he
      have hpow : (b * b % m) ^ (e / 2) ≡ b ^ (2 * (e / 2)) [MOD m] := by
        rw [pow_mul, pow_two]
        exact (Nat.mod_modEq _ _).pow _
      split
      · next hodd =>
        rw [ih _ _ _ hlt (Nat.mod_mod _ _)]
        have he' : b ^ e = b * b ^ (2 * (e / 2)) := by
          rw [← pow_succ']
          congr 1
          omega
        rw [he', ← Nat.mul_assoc]
        exact (Nat.mod_modEq _ _).mul hpow
      · next heven =>
        rw [ih _ _ _ hlt hr]
        have he' : b ^ e = b ^ (2 * (e / 2)) := by
          congr 1
          omega
        rw [he']
        exact (Nat.ModEq.refl _).mul hpow

/-- `modpow` is the power modulo `m` (R142), for every base and every exponent. -/
theorem modpow_eq (b e m : Nat) : modpow b e m = b ^ e % m := by
  rw [modpow, modpowLoop_eq _ _ _ _ _ (lt_two_pow_bitlen e) (Nat.mod_mod _ _), Nat.mul_mod, Nat.mod_mod, ← Nat.mul_mod,
    Nat.one_mul, ← Nat.pow_mod]

/-- A result below the modulus (R141, R142). -/
theorem modpow_lt (b e : Nat) {m : Nat} (hm : 0 < m) : modpow b e m < m := by
  rw [modpow_eq]
  exact Nat.mod_lt _ hm

theorem mulmod_lt (a b : Nat) {m : Nat} (hm : 0 < m) : mulmod a b m < m := Nat.mod_lt _ hm

/-- A register read back after a result was written to it (R141: the result fits 256 bits). -/
theorem State.readX_writeX (s : State) (rd r : XReg) (v : Nat) :
    (s.writeX rd v).readX r = if r = rd then BitVec.ofNat 256 v else s.readX r := by
  simp only [State.readX, State.writeX, State.setX_x]
  by_cases h : r = rd
  · subst h
    simp
  · rw [if_neg h]
    have : rd.val ≠ r.val := fun e => h (Fin.ext e.symm)
    simp [Fin.getElem_fin, this]

end Sys2Proof.Machine
end

