-- ==== Sys2Proof/Laws/Frame.lean ====
section
/-! SUPPORT. How to show a frame: part by part, then once for each update and for a recorded fault. -/

namespace Sys2Proof.Machine

/-- A frame from its eleven parts, each either among the changed ones or the same. -/
theorem keepsAllBut_of_parts {changed : Part → Prop} {s t : State}
    (lanes : changed .lanes ∨ t.S = s.S)
    (x : ∀ r : XReg, changed (.x r) ∨ t.x[r] = s.x[r])
    (P : ∀ j : PReg, changed (.P j) ∨ t.P[j] = s.P[j])
    (byte : ∀ a, changed (.byte a) ∨ t.BUF.read a = s.BUF.read a)
    (mlen : changed .mlen ∨ t.MLEN = s.MLEN)
    (plen : changed .plen ∨ t.PLEN = s.PLEN)
    (dig : changed .dig ∨ t.DIG = s.DIG)
    (status : changed .status ∨ t.STATUS = s.STATUS)
    (nblk : changed .nblk ∨ t.nblkPred = s.nblkPred)
    (pending : changed .pending ∨ t.pending = s.pending)
    (replies : changed .replies ∨ t.replies = s.replies) : keepsAllBut changed s t := by
  intro p hp
  cases p with
  | lanes => exact lanes.resolve_left hp
  | x r => exact (x r).resolve_left hp
  | P j => exact (P j).resolve_left hp
  | byte a => exact (byte a).resolve_left hp
  | mlen => exact mlen.resolve_left hp
  | plen => exact plen.resolve_left hp
  | dig => exact dig.resolve_left hp
  | status => exact status.resolve_left hp
  | nblk => exact nblk.resolve_left hp
  | pending => exact pending.resolve_left hp
  | replies => exact replies.resolve_left hp

/-- A byte of a canonical buffer outside the named ones is unchanged: then every byte is among them or the same. -/
theorem bytesFrom_or_same {s t : State} {lo hi : Nat}
    (h : s.BUF.wf → ∀ a, ¬ (lo ≤ a ∧ a < hi) → t.BUF.read a = s.BUF.read a) (a : Nat) :
    bytesFrom s lo hi (.byte a) ∨ t.BUF.read a = s.BUF.read a := by
  by_cases hw : s.BUF.wf
  · by_cases ha : lo ≤ a ∧ a < hi
    · exact .inl ⟨a, rfl, fun _ => ha⟩
    · exact .inr (h hw a ha)
  · exact .inl ⟨a, rfl, fun hw' => absurd hw' hw⟩

/-- Every part of a state is the same in that state. -/
theorem Part.same_refl (p : Part) (s : State) : p.same s s := by cases p <;> rfl

theorem Part.same_trans {p : Part} {s t u : State} (h1 : p.same s t) (h2 : p.same t u) : p.same s u := by
  cases p <;> exact Eq.trans h2 h1

theorem keepsAllBut_refl (changed : Part → Prop) (s : State) : keepsAllBut changed s s :=
  fun p _ => p.same_refl s

/-- A frame may name more parts. -/
theorem keepsAllBut_mono {c d : Part → Prop} {s t : State} (h : keepsAllBut c s t) (hcd : ∀ p, c p → d p) :
    keepsAllBut d s t :=
  fun p hp => h p fun hc => hp (hcd p hc)

/-- Two frames in a row. -/
theorem keepsAllBut_trans {c : Part → Prop} {s t u : State} (h1 : keepsAllBut c s t) (h2 : keepsAllBut c t u) :
    keepsAllBut c s u :=
  fun p hp => Part.same_trans (h1 p hp) (h2 p hp)

theorem setS_frame (s : State) (v : Lanes) : keepsAllBut (fun p => p = .lanes) s (s.setS v) := by
  apply keepsAllBut_of_parts <;> simp

theorem setX_frame (s : State) (r : XReg) (v : XWord) : keepsAllBut (fun p => p = .x r) s (s.setX r v) := by
  apply keepsAllBut_of_parts <;> simp
  intro r'
  by_cases h : r' = r
  · exact .inl h
  · exact .inr (Vector.getElem_set_ne _ _ fun e => h (Fin.ext e.symm))

theorem setP_frame (s : State) (j : PReg) (v : PointReg) : keepsAllBut (fun p => p = .P j) s (s.setP j v) := by
  apply keepsAllBut_of_parts <;> simp
  intro j'
  by_cases h : j' = j
  · exact .inl h
  · exact .inr (Vector.getElem_set_ne _ _ fun e => h (Fin.ext e.symm))

theorem setMLEN_frame (s : State) (v : Lane) : keepsAllBut (fun p => p = .mlen) s (s.setMLEN v) := by
  apply keepsAllBut_of_parts <;> simp

theorem setPLEN_frame (s : State) (v : Lane) : keepsAllBut (fun p => p = .plen) s (s.setPLEN v) := by
  apply keepsAllBut_of_parts <;> simp

theorem setDIG_frame (s : State) (v : Vector Byte 32) : keepsAllBut (fun p => p = .dig) s (s.setDIG v) := by
  apply keepsAllBut_of_parts <;> simp

theorem setSTATUS_frame (s : State) (v : Lane) : keepsAllBut (fun p => p = .status) s (s.setSTATUS v) := by
  apply keepsAllBut_of_parts <;> simp

theorem pushReply_frame (s : State) (r : BusReply) : keepsAllBut (fun p => p = .replies) s (s.pushReply r) := by
  apply keepsAllBut_of_parts <;> simp

theorem setPending_frame (s : State) (es : List HostEvent) :
    keepsAllBut (fun p => p = .pending) s (s.setPending es) := by
  apply keepsAllBut_of_parts <;> simp

/-- Fault entry (R203): what it records and that nothing else changes. -/
theorem raise_records (s : State) (c : FaultCause) (w : CmdWord) : recordsFault s (s.raise c w) c.code.toNat w :=
  ⟨statusWord_toNat c w, setSTATUS_frame s _⟩

end Sys2Proof.Machine
end

