-- ==== Sys2Proof/Laws/Curve.lean ====
section
/-! SUPPORT. What the shared operations of curve arithmetic answer: reduction modulo the field prime, `inv_p`, `padd`,
`smul` (R160 to R162), and how a point value reads back from a point register (R24). -/

namespace Sys2Proof.Machine

/-! ### Arithmetic modulo the field prime -/

/-- The prime of the machine is the rule's number (R6, R140). -/
theorem pInt_eq : pInt = primeP := by decide +kernel

theorem fieldPrime_toNat : fieldPrime.toNat = primeP.toNat := by decide +kernel

theorem primeP_pos : (0 : Int) < primeP := by decide +kernel

theorem primeP_lt : primeP < 2 ^ 256 := by decide +kernel

/-- `modP` is the residue, as an integer (R160). -/
theorem modP_cast (v : Int) : (modP v : Int) = v % primeP := by
  rw [modP, pInt_eq]
  exact Int.toNat_of_nonneg (Int.emod_nonneg _ primeP_pos.ne')

theorem modP_lt (v : Int) : modP v < 2 ^ 256 := by
  have h := Int.emod_lt_of_pos v primeP_pos
  have h2 := primeP_lt
  rw [← modP_cast] at h
  omega

/-- A stored residue reads back as the residue (R161). -/
theorem ofNat_modP_toNat (v : Int) : ((BitVec.ofNat 256 (modP v)).toNat : Int) = v % primeP := by
  rw [BitVec.toNat_ofNat, Nat.mod_eq_of_lt (modP_lt v), modP_cast]

/-- `inv_p` is the Fermat power of the residue (R145, R160). -/
theorem invP_cast (v : Int) : (invP v : Int) = fermatInv v := by
  rw [invP, modinv, modpow_eq, fieldPrime_toNat, fermatInv, Int.natCast_mod, Int.natCast_pow, modP_cast,
    Int.toNat_of_nonneg primeP_pos.le]

/-! ### Addition -/

/-- The coordinates of the third point on a line of slope `sl` (R161). -/
theorem slopePoint_spec (sl x1 y1 x2 : Int) :
    ∃ a b : XWord, slopePoint sl x1 y1 x2 = .pt a b ∧ (a.toNat : Int) = (sl * sl - x1 - x2) % primeP ∧
      (b.toNat : Int) = (sl * (x1 - a.toNat) - y1) % primeP := by
  refine ⟨_, _, rfl, ofNat_modP_toNat _, ?_⟩
  rw [ofNat_modP_toNat, ofNat_modP_toNat, modP_cast]

/-- Equality of stored values is equality of the integers they stand for (R161). -/
theorem xword_eq_iff_int (u v : XWord) : u = v ↔ (u.toNat : Int) = (v.toNat : Int) := by
  rw [Int.natCast_inj]
  exact ⟨fun h => h ▸ rfl, BitVec.eq_of_toNat_eq⟩

/-- `padd` is the sum that R161 writes, for every pair of point values. -/
theorem padd_spec (u v : Point) : PointSum u v (padd u v) := by
  cases u with
  | inf => rfl
  | pt x1 y1 =>
    cases v with
    | inf => rfl
    | pt x2 y2 =>
      simp only [PointSum, padd, slopeOf, ← xword_eq_iff_int]
      split
      · obtain ⟨a, b, h1, h2, h3⟩ := slopePoint_spec
          (modP (3 * (x1.toNat : Int) * x1.toNat * invP (2 * y1.toNat))) x1.toNat y1.toNat x2.toNat
        rw [modP_cast, invP_cast] at h2 h3
        exact ⟨a, b, h1, h2, h3⟩
      · obtain ⟨a, b, h1, h2, h3⟩ := slopePoint_spec
          (modP (((y2.toNat : Int) - y1.toNat) * invP (x2.toNat - x1.toNat))) x1.toNat y1.toNat x2.toNat
        rw [modP_cast, invP_cast] at h2 h3
        exact ⟨a, b, h1, h2, h3⟩

@[simp] theorem padd_inf_left (v : Point) : padd .inf v = v := rfl

@[simp] theorem padd_inf_right (u : Point) : padd u .inf = u := by cases u <;> rfl

/-- The sum of two points other than the identity is never the identity (R161: there is no branch that makes it so). -/
theorem padd_pt_ne_inf (x1 y1 x2 y2 : XWord) : padd (.pt x1 y1) (.pt x2 y2) ≠ .inf := by
  obtain ⟨a, b, h, -, -⟩ := padd_spec (.pt x1 y1) (.pt x2 y2)
  rw [h]
  exact Point.noConfusion

/-! ### Multiplication -/

/-- The accumulator and the doubled addend after `n` iterations (R162). -/
def smulAfter (k : Nat) (P : Point) (n : Nat) : Point × Point := (List.range n).foldl (smulStep k) (.inf, P)

@[simp] theorem smulAfter_zero (k : Nat) (P : Point) : smulAfter k P 0 = (.inf, P) := rfl

theorem smulAfter_succ (k : Nat) (P : Point) (n : Nat) :
    smulAfter k P (n + 1) = smulStep k (smulAfter k P n) n := by
  rw [smulAfter, smulAfter, List.range_succ, List.foldl_append, List.foldl_cons, List.foldl_nil]

theorem smul_eq_smulAfter (k : Nat) (P : Point) : smul k P = (smulAfter k P (bitlen k)).1 := rfl

/-- The addend of a point other than the identity stays other than the identity (R162). -/
theorem smulAfter_addend_ne_inf (k : Nat) (x y : XWord) (n : Nat) : (smulAfter k (.pt x y) n).2 ≠ .inf := by
  induction n with
  | zero => exact Point.noConfusion
  | succ n ih =>
    rw [smulAfter_succ]
    simp only [smulStep]
    cases h : (smulAfter k (.pt x y) n).2 with
    | inf => exact absurd h ih
    | pt a b => exact padd_pt_ne_inf _ _ _ _

/-! ### Point registers -/

/-- A stored point reads back as itself (R24). -/
@[simp] theorem Point.stored_value (p : Point) : p.stored.value = p := by cases p <;> rfl

/-- A command stores the point value in the form the rule gives (R24). -/
theorem storedAs_stored (p : Point) : storedAs p.stored p := by cases p <;> exact ⟨rfl, rfl, rfl⟩

/-- The register a command wrote holds the stored point (R24). -/
theorem State.writePoint_self (s : State) (j : PReg) (p : Point) : (s.writePoint j p).P[j] = p.stored :=
  Vector.getElem_set_self _

@[simp] theorem State.readPoint_writePoint (s : State) (j : PReg) (p : Point) : (s.writePoint j p).readPoint j = p := by
  rw [State.readPoint, State.writePoint_self, Point.stored_value]

end Sys2Proof.Machine
end

