-- ==== Sys2Proof/Laws/Encode.lean ====
section
/-! SUPPORT. What a packed word is, as a number and field by field (R81, R84). -/

namespace Sys2Proof

/-- A word as the sum of its fields at their places (R81). -/
theorem packFields_toNat (op : BitVec 8) (a b c d : BitVec 4) :
    (packFields op a b c d).toNat =
      op.toNat + 256 * a.toNat + 4096 * b.toNat + 65536 * c.toNat + 1048576 * d.toNat := by
  have := op.isLt; have := a.isLt; have := b.isLt; have := c.isLt; have := d.isLt
  simp only [packFields, BitVec.toNat_append, Nat.shiftLeft_eq, BitVec.toNat_zero, Nat.zero_mul, Nat.zero_or]
  rw [Nat.mul_comm d.toNat, ← Nat.two_pow_add_eq_or_of_lt (by omega), Nat.mul_comm _ (2 ^ 4),
    ← Nat.two_pow_add_eq_or_of_lt (by omega), Nat.mul_comm _ (2 ^ 4), ← Nat.two_pow_add_eq_or_of_lt (by omega),
    Nat.mul_comm _ (2 ^ 8), ← Nat.two_pow_add_eq_or_of_lt (by omega)]
  omega

/-- The word of KABSORB as a number (R82 format I). -/
theorem encode_kabsorb_toNat (b : BitVec 16) : (encode (.kabsorb b)).toNat = 4 + 256 * b.toNat := by
  have := b.isLt
  simp only [encode, BitVec.toNat_append, Nat.shiftLeft_eq, BitVec.toNat_zero, Nat.zero_mul, Nat.zero_or]
  rw [Nat.mul_comm, ← Nat.two_pow_add_eq_or_of_lt (by decide), BitVec.toNat_ofNat]
  omega

@[simp] theorem xfield_toNat (r : XReg) : (xfield r).toNat = r.val := by
  rw [xfield, BitVec.toNat_ofNat, Nat.mod_eq_of_lt r.isLt]

@[simp] theorem pfield_toNat (j : PReg) : (pfield j).toNat = j.val := by
  rw [pfield, BitVec.toNat_ofNat, Nat.mod_eq_of_lt (by omega)]

/-- The fields of a packed word are the fields it was packed from (R81). -/
@[simp] theorem ofWord_packFields (op : BitVec 8) (a b c d : BitVec 4) :
    Fields.ofWord (packFields op a b c d) = { zero := 0, d := d, c := c, b := b, a := a, opcode := op } := by
  simp only [Fields.ofWord, packFields, Fields.mk.injEq]
  refine ⟨?_, ?_, ?_, ?_, ?_, ?_⟩ <;>
    (apply BitVec.eq_of_getLsbD_eq
     intro i hi
     simp only [BitVec.getLsbD_extractLsb', BitVec.getLsbD_append, hi, decide_true, Bool.true_and]
     repeat' split
     all_goals first | omega | (congr 1; omega))

/-- The fields of the word of KABSORB that its format fixes (R82 format I). -/
theorem ofWord_kabsorb (imm16 : BitVec 16) :
    (Fields.ofWord (encode (.kabsorb imm16))).zero = 0 ∧ (Fields.ofWord (encode (.kabsorb imm16))).opcode = 0x04 := by
  simp only [Fields.ofWord, encode]
  refine ⟨?_, ?_⟩ <;>
    (apply BitVec.eq_of_getLsbD_eq
     intro i hi
     simp only [BitVec.getLsbD_extractLsb', BitVec.getLsbD_append, hi, decide_true, Bool.true_and]
     repeat' split
     all_goals first | omega | (congr 1; omega))

end Sys2Proof
end

