-- ==== Sys2Proof/Laws/Decode.lean ====
section
/-! SUPPORT. How the mask and match table reads a word (R85, R86): by its fields, and one row for each opcode. -/

namespace Sys2Proof

/-- A word from all its fields (R81), bits 31:24 included. -/
def Fields.word (f : Fields) : CmdWord := f.zero ++ f.d ++ f.c ++ f.b ++ f.a ++ f.opcode

/-- A word is made of its fields (R81). -/
theorem Fields.word_ofWord (w : CmdWord) : (Fields.ofWord w).word = w := by
  apply BitVec.eq_of_getLsbD_eq
  intro i hi
  simp only [Fields.word, Fields.ofWord, BitVec.getLsbD_append, BitVec.getLsbD_extractLsb']
  repeat' split
  all_goals
    rw [decide_eq_true (by omega), Bool.true_and]
    congr 1
    omega

/-- The fields of a word made of fields (R81). -/
theorem Fields.ofWord_word (f : Fields) : Fields.ofWord f.word = f := by
  obtain ⟨z, d, c, b, a, op⟩ := f
  simp only [Fields.ofWord, Fields.word, Fields.mk.injEq]
  refine ⟨?_, ?_, ?_, ?_, ?_, ?_⟩ <;>
    (apply BitVec.eq_of_getLsbD_eq
     intro i hi
     simp only [BitVec.getLsbD_extractLsb', BitVec.getLsbD_append, hi, decide_true, Bool.true_and]
     repeat' split
     all_goals first | omega | (congr 1; omega))

/-- The fields of a masked word are the masked fields. -/
theorem Fields.ofWord_and (v w : CmdWord) :
    Fields.ofWord (v &&& w) =
      { zero := (Fields.ofWord v).zero &&& (Fields.ofWord w).zero, d := (Fields.ofWord v).d &&& (Fields.ofWord w).d,
        c := (Fields.ofWord v).c &&& (Fields.ofWord w).c, b := (Fields.ofWord v).b &&& (Fields.ofWord w).b,
        a := (Fields.ofWord v).a &&& (Fields.ofWord w).a,
        opcode := (Fields.ofWord v).opcode &&& (Fields.ofWord w).opcode } := by
  simp [Fields.ofWord, BitVec.extractLsb'_and]

/-- A row accepts a word exactly when it accepts it field by field (R85). -/
theorem OpcodeRow.accepts_iff (r : OpcodeRow) (w : CmdWord) :
    r.accepts w = true ↔
      (Fields.ofWord w).zero &&& (Fields.ofWord r.mask).zero = (Fields.ofWord r.pattern).zero ∧
      (Fields.ofWord w).d &&& (Fields.ofWord r.mask).d = (Fields.ofWord r.pattern).d ∧
      (Fields.ofWord w).c &&& (Fields.ofWord r.mask).c = (Fields.ofWord r.pattern).c ∧
      (Fields.ofWord w).b &&& (Fields.ofWord r.mask).b = (Fields.ofWord r.pattern).b ∧
      (Fields.ofWord w).a &&& (Fields.ofWord r.mask).a = (Fields.ofWord r.pattern).a ∧
      (Fields.ofWord w).opcode &&& (Fields.ofWord r.mask).opcode = (Fields.ofWord r.pattern).opcode := by
  rw [OpcodeRow.accepts, beq_iff_eq]
  constructor
  · intro h
    have h2 := congrArg Fields.ofWord h
    rw [Fields.ofWord_and] at h2
    exact ⟨congrArg Fields.zero h2, congrArg Fields.d h2, congrArg Fields.c h2, congrArg Fields.b h2,
      congrArg Fields.a h2, congrArg Fields.opcode h2⟩
  · rintro ⟨h1, h2, h3, h4, h5, h6⟩
    rw [← Fields.word_ofWord (w &&& r.mask), ← Fields.word_ofWord r.pattern, Fields.ofWord_and]
    simp only [Fields.word, h1, h2, h3, h4, h5, h6]

/-- The opcode byte of a row (R85). -/
def OpcodeRow.opcode (r : OpcodeRow) : BitVec 8 := (Fields.ofWord r.pattern).opcode

/-- Every row's mask covers the whole opcode byte (R85). -/
theorem opcodeTable_mask : ∀ r ∈ opcodeTable, (Fields.ofWord r.mask).opcode = 0xFF#8 := by decide

/-- All sixteen opcodes are distinct (R85). -/
theorem opcodeTable_nodup : (opcodeTable.map OpcodeRow.opcode).Nodup := by decide

/-- A word that a row accepts has that row's opcode (R85). -/
theorem OpcodeRow.opcode_of_accepts {r : OpcodeRow} (hr : r ∈ opcodeTable) {w : CmdWord} (h : r.accepts w = true) :
    (Fields.ofWord w).opcode = r.opcode := by
  have h2 := ((r.accepts_iff w).1 h).2.2.2.2.2
  rw [opcodeTable_mask r hr] at h2
  rw [OpcodeRow.opcode, ← h2]
  exact (BitVec.and_allOnes).symm

/-- In a list with distinct keys, the first row that accepts is the row of the key, if it accepts. -/
theorem find?_of_key {α κ : Type} [DecidableEq κ] (key : α → κ) (acc : α → Bool) (k : κ) (l : List α)
    (hd : (l.map key).Nodup) (h : ∀ r ∈ l, acc r = true → key r = k) :
    l.find? acc = (l.find? fun r => decide (key r = k)).filter acc := by
  induction l with
  | nil => rfl
  | cons r l ih =>
    rw [List.map_cons, List.nodup_cons] at hd
    have ih := ih hd.2 fun x hx => h x (List.mem_cons_of_mem _ hx)
    by_cases ha : acc r = true
    · have hk := h r List.mem_cons_self ha
      rw [List.find?_cons_of_pos ha, List.find?_cons_of_pos (by simpa using hk), Option.filter_some, if_pos ha]
    · rw [List.find?_cons_of_neg ha]
      by_cases hk : key r = k
      · rw [List.find?_cons_of_pos (by simpa using hk), Option.filter_some, if_neg ha, List.find?_eq_none]
        intro x hx hax
        exact hd.1 (List.mem_map.2 ⟨x, hx, (h x (List.mem_cons_of_mem _ hx) hax).trans hk.symm⟩)
      · rw [List.find?_cons_of_neg (by simpa using hk), ih]

/-- The decoder looks the opcode up and then asks that one row (R85, R86). -/
theorem decode_by_opcode (w : CmdWord) :
    decode w = match (opcodeTable.find? fun r => decide (r.opcode = (Fields.ofWord w).opcode)).filter
        (fun r => r.accepts w) with
      | some r => .ok (r.build w)
      | none => .error (.illegalCommand w) := by
  have e := find?_of_key OpcodeRow.opcode (fun r => r.accepts w) (Fields.ofWord w).opcode _ opcodeTable_nodup
    fun r hr h => (OpcodeRow.opcode_of_accepts hr h).symm
  rw [← e]
  cases h : opcodeTable.find? (fun r => r.accepts w) <;> simp only [decode, h]

end Sys2Proof
end

