-- ==== Sys2Proof/Laws/Keccak.lean ====
section
/-! SUPPORT. What each step of a Keccak round leaves in each lane (R104 to R108). -/

namespace Sys2Proof.Machine

/-- θ, lane by lane (R104). -/
theorem theta_getElem (A : Lanes) (i : Fin 25) :
    (theta A)[i] = A[i] ^^^ (thetaD (columnParity A))[Fin.ofNat 5 i.val] := by
  simp only [theta, Fin.getElem_fin, Vector.getElem_ofFn, Fin.val_ofNat]

/-- `PIINV` undoes `PI` (R103). -/
theorem piinv_pi (i : Fin 25) : PIINV[PI[i]] = i := by
  revert i
  decide

/-- The gathering form of ρ and π puts at `PI[i]` what the scattering form puts there (R105). -/
theorem rhopi_getElem_pi (A : Lanes) (i : Fin 25) : (rhopi A)[PI[i]] = rotl64 A[i] RHO[i] := by
  have h := piinv_pi i
  simp only [Fin.getElem_fin] at h ⊢
  rw [rhopi]
  simp only [Fin.getElem_fin, Vector.getElem_ofFn, h]

/-- χ, lane by lane (R106). -/
theorem chi_getElem (T : Lanes) (i : Fin 25) :
    (chi T)[i] = T[i] ^^^ ((~~~ T[Fin.ofNat 25 (5 * (i.val / 5) + (i.val % 5 + 1) % 5)])
      &&& T[Fin.ofNat 25 (5 * (i.val / 5) + (i.val % 5 + 2) % 5)]) := by
  have h := i.isLt
  simp only [chi, Vector.getElem_ofFn, Fin.getElem_fin, Fin.val_ofNat,
    Nat.mod_eq_of_lt (rowPos_lt (k := i.val % 5 + 1) h), Nat.mod_eq_of_lt (rowPos_lt (k := i.val % 5 + 2) h)]

/-- ι, lane by lane (R107). -/
theorem iota_getElem (A : Lanes) (r : Fin 24) (i : Fin 25) :
    (iota A r)[i] = A[i] ^^^ (if i = 0 then RC[r] else 0#64) := by
  by_cases h : i = 0
  · subst h
    rw [if_pos rfl]
    exact Vector.getElem_set_self _
  · have h0 : (0 : Nat) ≠ i.val := fun e => h (Fin.ext e.symm)
    rw [if_neg h, BitVec.xor_zero]
    exact Vector.getElem_set_ne _ _ h0

/-- The lanes after the first `n` rounds (R108). -/
def roundsAfter (A : Lanes) (n : Nat) : Lanes := (List.range n).foldl (fun B r => keccakRound B (Fin.ofNat 24 r)) A

@[simp] theorem roundsAfter_zero (A : Lanes) : roundsAfter A 0 = A := rfl

theorem roundsAfter_succ (A : Lanes) (n : Nat) :
    roundsAfter A (n + 1) = keccakRound (roundsAfter A n) (Fin.ofNat 24 n) := by
  rw [roundsAfter, roundsAfter, List.range_succ, List.foldl_append, List.foldl_cons, List.foldl_nil]

/-- The permutation is twenty-four rounds in ascending order (R108). -/
theorem keccakF_eq_roundsAfter (A : Lanes) : keccakF A = roundsAfter A 24 := by
  rw [keccakF, roundsAfter, ← List.map_coe_finRange_eq_range, List.foldl_map]
  simp

end Sys2Proof.Machine
end

