-- ==== Sys2Proof/Laws/PerInstr.lean ====
section
/-! SUPPORT. The per-instruction family `EncodesLegally`: the word that the encoder writes for an instruction passes every
check of the format table (R82, R83, R87). One lemma per command. -/

namespace Sys2Proof.Laws.EncodesLegally

open Sys2Proof

/-- The word of the instruction is well formed. -/
def Statement (i : Instr) : Prop := WellFormedWord (encode i) = true

/-- A packed word is well formed when its fields pass the checks. -/
theorem of_fields {op : BitVec 8} {a b c d : BitVec 4} {fmt : Format}
    (h : Fields.check { zero := 0, d := d, c := c, b := b, a := a, opcode := op } = .ok fmt) :
    WellFormedWord (packFields op a b c d) = true := by
  rw [WellFormedWord, ofWord_packFields, h]

theorem kinit : Statement .kinit := of_fields (fmt := .N) rfl

theorem kf : Statement .kf := of_fields (fmt := .N) rfl

theorem kpad : Statement .kpad := of_fields (fmt := .N) rfl

theorem kabsorb (imm16 : BitVec 16) : Statement (.kabsorb imm16) := by
  obtain ⟨h1, h2⟩ := ofWord_kabsorb imm16
  rw [Statement, WellFormedWord, Fields.check, h1, h2]
  rfl

theorem ksqueeze : Statement .ksqueeze := of_fields (fmt := .N) rfl

theorem khash : Statement .khash := of_fields (fmt := .N) rfl

theorem modmul (rd rs1 rs2 rm : XReg) : Statement (.modmul rd rs1 rs2 rm) := of_fields (fmt := .M4) rfl

theorem modpow (rd rs1 rs2 rm : XReg) : Statement (.modpow rd rs1 rs2 rm) := of_fields (fmt := .M4) rfl

theorem modinv (rd rs1 rm : XReg) : Statement (.modinv rd rs1 rm) := of_fields (fmt := .M3) rfl

theorem ldc (rd : XReg) (c : CurveConst) : Statement (.ldc rd c) := by
  cases c <;> exact of_fields (fmt := .C) rfl

theorem padd (pd pa pb : PReg) : Statement (.padd pd pa pb) := by
  refine of_fields (fmt := .P3) ?_
  revert pd pa pb
  decide

theorem pdbl (pd pa : PReg) : Statement (.pdbl pd pa) := by
  refine of_fields (fmt := .P2) ?_
  revert pd pa
  decide

theorem smul (pd : PReg) (rk : XReg) (pa : PReg) : Statement (.smul pd rk pa) := by
  refine of_fields (fmt := .PS) ?_
  revert pd rk pa
  decide +kernel

theorem ldg (pd : PReg) : Statement (.ldg pd) := by
  refine of_fields (fmt := .P1) ?_
  revert pd
  decide

theorem pser (pa : PReg) : Statement (.pser pa) := by
  refine of_fields (fmt := .PR) ?_
  revert pa
  decide

theorem k2addr (rk : XReg) : Statement (.k2addr rk) := by
  refine of_fields (fmt := .XR) ?_
  revert rk
  decide

end Sys2Proof.Laws.EncodesLegally
end

