-- ==== Sys2Proof/Laws/Sponge.lean ====
section
/-! SUPPORT. What the shared state changes of the sponge commands do (R109, R122, R123, R125, R127), once each. -/

namespace Sys2Proof.Machine

variable (s : State)

/-- The padded length is above the message length by 1 to 136 (R120, R122). -/
theorem State.paddedLen_bounds : s.MLEN.toNat < s.paddedLen ∧ s.paddedLen ≤ s.MLEN.toNat + 136 := by
  simp only [State.paddedLen, Config.rateBytes]
  omega

theorem State.paddedLen_mod : s.paddedLen % 136 = 0 := by
  simp [State.paddedLen, Config.rateBytes]

/-- The padded message fits exactly when MLEN is below the capacity (R122). -/
theorem State.paddedLen_le_bufCap : s.paddedLen ≤ s.bufCap ↔ s.MLEN.toNat < s.bufCap := by
  simp only [State.paddedLen, State.bufCap, Config.rateBytes]
  omega

@[simp] theorem State.doKinit_eq : s.doKinit = s.setS zeroLanes := rfl
@[simp] theorem State.doKabsorb_eq (b : Nat) :
    s.doKabsorb b = s.setS (absorbBlock s.S (s.BUF.readBytes (136 * b) 136)) := rfl
@[simp] theorem State.doKsqueeze_eq : s.doKsqueeze = s.setDIG (squeeze s.S) := rfl

@[simp] theorem State.doKpad_S : s.doKpad.S = s.S := rfl
@[simp] theorem State.doKpad_x : s.doKpad.x = s.x := rfl
@[simp] theorem State.doKpad_P : s.doKpad.P = s.P := rfl
@[simp] theorem State.doKpad_MLEN : s.doKpad.MLEN = s.MLEN := rfl
@[simp] theorem State.doKpad_PLEN : s.doKpad.PLEN = BitVec.ofNat 64 s.paddedLen := rfl
@[simp] theorem State.doKpad_DIG : s.doKpad.DIG = s.DIG := rfl
@[simp] theorem State.doKpad_STATUS : s.doKpad.STATUS = s.STATUS := rfl
@[simp] theorem State.doKpad_nblkPred : s.doKpad.nblkPred = s.nblkPred := rfl
@[simp] theorem State.doKpad_pending : s.doKpad.pending = s.pending := rfl
@[simp] theorem State.doKpad_replies : s.doKpad.replies = s.replies := rfl
@[simp] theorem State.doKpad_bufCap : s.doKpad.bufCap = s.bufCap := rfl
@[simp] theorem State.doKpad_paddedLen : s.doKpad.paddedLen = s.paddedLen := rfl

/-- What KPAD leaves in each byte of a canonical buffer (R122): the message below MLEN, the padding up to the padded
length, the old bytes above. -/
theorem State.doKpad_read (h : s.BUF.wf) (a : Nat) :
    s.doKpad.BUF.read a =
      if a < s.MLEN.toNat ∨ s.paddedLen ≤ a then s.BUF.read a
      else (if a = s.MLEN.toNat then 0x01#8 else 0#8) ||| (if a = s.paddedLen - 1 then 0x80#8 else 0#8) := by
  obtain ⟨h1, h2⟩ := s.paddedLen_bounds
  simp only [State.doKpad, State.setPLEN_BUF, State.setBUF_BUF]
  have hw := Memory.write_wf h s.MLEN.toNat Config.padFirst
  have hwb := Memory.writeBytes_wf hw (s.MLEN.toNat + 1) (List.replicate (s.paddedLen - s.MLEN.toNat - 1) 0#8)
  have hread : ∀ a', ((s.BUF.write s.MLEN.toNat Config.padFirst).writeBytes (s.MLEN.toNat + 1)
      (List.replicate (s.paddedLen - s.MLEN.toNat - 1) 0#8)).read a' =
      if a' < s.MLEN.toNat ∨ s.paddedLen ≤ a' then s.BUF.read a' else if a' = s.MLEN.toNat then 0x01#8 else 0#8 := by
    intro a'
    rw [Memory.read_writeBytes hw, Memory.read_write h.1, List.length_replicate]
    by_cases c1 : s.MLEN.toNat + 1 ≤ a' ∧ a' < s.MLEN.toNat + 1 + (s.paddedLen - s.MLEN.toNat - 1)
    · rw [if_pos c1, if_neg (by omega), if_neg (by omega)]
      simp
    · rw [if_neg c1]
      by_cases c2 : a' = s.MLEN.toNat
      · rw [if_pos c2, if_neg (by omega), if_pos c2]
      · rw [if_neg c2, if_pos (by omega)]
  rw [Memory.read_write hwb.1, hread, hread]
  by_cases ha : a = s.paddedLen - 1
  · subst ha
    have hn : ¬ (s.paddedLen - 1 < s.MLEN.toNat ∨ s.paddedLen ≤ s.paddedLen - 1) := by omega
    rw [if_pos rfl, if_neg hn, if_neg hn, if_pos rfl]
  · rw [if_neg ha]
    by_cases hb : a < s.MLEN.toNat ∨ s.paddedLen ≤ a
    · rw [if_pos hb, if_pos hb]
    · rw [if_neg hb, if_neg hb, if_neg ha, BitVec.or_zero]

theorem State.doKpad_wf (h : s.BUF.wf) : s.doKpad.BUF.wf :=
  Memory.write_wf (Memory.writeBytes_wf (Memory.write_wf h _ _) _ _) _ _

theorem State.doKpad_below (h : s.BUF.below s.bufCap) (hf : s.paddedLen ≤ s.bufCap) :
    s.doKpad.BUF.below s.bufCap := by
  obtain ⟨h1, h2⟩ := s.paddedLen_bounds
  refine Memory.write_below (Memory.writeBytes_below (Memory.write_below h (by omega) _) _ _ ?_) (by omega) _
  rw [List.length_replicate]
  omega

/-- Absorbing blocks changes the lanes only: the blocks of the buffer in order (R123, R127). -/
theorem State.absorbBlocks_eq (n : Nat) :
    s.absorbBlocks n =
      s.setS ((List.range n).foldl (fun A k => absorbBlock A (s.BUF.readBytes (136 * k) 136)) s.S) := by
  induction n with
  | zero => rfl
  | succ n ih =>
    have step : s.absorbBlocks (n + 1) = (s.absorbBlocks n).doKabsorb n := by
      rw [State.absorbBlocks, State.absorbBlocks, List.range_succ, List.foldl_append, List.foldl_cons, List.foldl_nil]
    rw [step, ih, List.range_succ, List.foldl_append, List.foldl_cons, List.foldl_nil, State.doKabsorb_eq, State.setS_S,
      State.setS_BUF]
    simp only [State.setS]

/-- What KHASH does once its check has passed (R127): KPAD's buffer and length, the lanes after the last block, and the
digest of those lanes. -/
theorem State.doKhash_eq :
    s.doKhash =
      ((s.doKpad.setS ((List.range (s.paddedLen / 136)).foldl
        (fun A k => absorbBlock A (s.doKpad.BUF.readBytes (136 * k) 136)) zeroLanes)).setDIG
        (squeeze ((List.range (s.paddedLen / 136)).foldl
          (fun A k => absorbBlock A (s.doKpad.BUF.readBytes (136 * k) 136)) zeroLanes))) := by
  rw [State.doKhash, State.absorbBlocks_eq, State.doKsqueeze_eq]
  rfl

@[simp] theorem State.doKhash_x : s.doKhash.x = s.x := by rw [State.doKhash_eq]; rfl
@[simp] theorem State.doKhash_P : s.doKhash.P = s.P := by rw [State.doKhash_eq]; rfl
@[simp] theorem State.doKhash_BUF : s.doKhash.BUF = s.doKpad.BUF := by rw [State.doKhash_eq]; rfl
@[simp] theorem State.doKhash_MLEN : s.doKhash.MLEN = s.MLEN := by rw [State.doKhash_eq]; rfl
@[simp] theorem State.doKhash_PLEN : s.doKhash.PLEN = BitVec.ofNat 64 s.paddedLen := by rw [State.doKhash_eq]; rfl
@[simp] theorem State.doKhash_STATUS : s.doKhash.STATUS = s.STATUS := by rw [State.doKhash_eq]; rfl
@[simp] theorem State.doKhash_nblkPred : s.doKhash.nblkPred = s.nblkPred := by rw [State.doKhash_eq]; rfl
@[simp] theorem State.doKhash_pending : s.doKhash.pending = s.pending := by rw [State.doKhash_eq]; rfl
@[simp] theorem State.doKhash_replies : s.doKhash.replies = s.replies := by rw [State.doKhash_eq]; rfl
@[simp] theorem State.doKhash_bufCap : s.doKhash.bufCap = s.bufCap := by rw [State.doKhash_eq]; rfl

/-- The length of a padded message (R120). -/
theorem pad_length (M : List Byte) : (pad M).length = 136 * (M.length / 136 + 1) := by
  simp only [pad, List.length_set, List.length_append, List.length_replicate, List.length_cons, List.length_nil,
    Config.rateBytes]
  omega

end Sys2Proof.Machine
end

