-- ==== Sys2Proof/Laws/Pipeline.lean ====
section
/-! SUPPORT. What serialising a point does (R180, R181), field by field and byte by byte. -/

namespace Sys2Proof.Machine

variable (s : State) (x y : XWord)

/-- Byte `j` of the big-endian form is bits `255-8j : 248-8j` (R12). -/
theorem be256Byte_eq (v : XWord) {j : Nat} (h : j < 32) : be256Byte v j = v.extractLsb' (248 - 8 * j) 8 := by
  rw [be256Byte]
  congr 1
  omega

@[simp] theorem ser_length : (ser x y).length = 64 := by simp [ser]

/-- The bytes of a serialised point (R180): `x`, then `y`, each big-endian. -/
theorem ser_getD {j : Nat} (h : j < 32) :
    (ser x y).getD j 0 = x.extractLsb' (248 - 8 * j) 8 ∧ (ser x y).getD (32 + j) 0 = y.extractLsb' (248 - 8 * j) 8 := by
  constructor
  · rw [ser, List.getD_append _ _ _ _ (by simpa using h), be256Bytes_getD _ h, be256Byte_eq _ h]
  · rw [ser, List.getD_append_right _ _ _ _ (by simp), be256Bytes_length, Nat.add_sub_cancel_left, be256Bytes_getD _ h,
      be256Byte_eq _ h]

/-- The state a serialisation leaves (R181): the buffer and MLEN. -/
theorem State.doSerialise_eq :
    s.doSerialise x y = (s.setBUF (s.BUF.writeBytes 0 (ser x y))).setMLEN 64#64 := by
  rw [State.doSerialise]

@[simp] theorem State.doSerialise_S : (s.doSerialise x y).S = s.S := by
  rw [State.doSerialise_eq, State.setMLEN_S, State.setBUF_S]
@[simp] theorem State.doSerialise_x : (s.doSerialise x y).x = s.x := by
  rw [State.doSerialise_eq, State.setMLEN_x, State.setBUF_x]
@[simp] theorem State.doSerialise_P : (s.doSerialise x y).P = s.P := by
  rw [State.doSerialise_eq, State.setMLEN_P, State.setBUF_P]
@[simp] theorem State.doSerialise_BUF : (s.doSerialise x y).BUF = s.BUF.writeBytes 0 (ser x y) := by
  rw [State.doSerialise_eq, State.setMLEN_BUF, State.setBUF_BUF]
@[simp] theorem State.doSerialise_MLEN : (s.doSerialise x y).MLEN = 64#64 := by
  rw [State.doSerialise_eq, State.setMLEN_MLEN]
@[simp] theorem State.doSerialise_PLEN : (s.doSerialise x y).PLEN = s.PLEN := by
  rw [State.doSerialise_eq, State.setMLEN_PLEN, State.setBUF_PLEN]
@[simp] theorem State.doSerialise_DIG : (s.doSerialise x y).DIG = s.DIG := by
  rw [State.doSerialise_eq, State.setMLEN_DIG, State.setBUF_DIG]
@[simp] theorem State.doSerialise_STATUS : (s.doSerialise x y).STATUS = s.STATUS := by
  rw [State.doSerialise_eq, State.setMLEN_STATUS, State.setBUF_STATUS]
@[simp] theorem State.doSerialise_nblkPred : (s.doSerialise x y).nblkPred = s.nblkPred := by
  rw [State.doSerialise_eq, State.setMLEN_nblkPred, State.setBUF_nblkPred]
@[simp] theorem State.doSerialise_pending : (s.doSerialise x y).pending = s.pending := by
  rw [State.doSerialise_eq, State.setMLEN_pending, State.setBUF_pending]
@[simp] theorem State.doSerialise_replies : (s.doSerialise x y).replies = s.replies := by
  rw [State.doSerialise_eq, State.setMLEN_replies, State.setBUF_replies]
@[simp] theorem State.doSerialise_bufCap : (s.doSerialise x y).bufCap = s.bufCap := by
  rw [State.doSerialise_eq, State.setMLEN_bufCap, State.setBUF_bufCap]

/-- A serialised key is padded to one block (R183). -/
@[simp] theorem State.doSerialise_paddedLen : (s.doSerialise x y).paddedLen = 136 := by
  rw [State.paddedLen, State.doSerialise_MLEN]
  rfl

theorem State.doSerialise_wf (h : s.BUF.wf) : (s.doSerialise x y).BUF.wf := by
  rw [State.doSerialise_BUF]
  exact Memory.writeBytes_wf h _ _

theorem State.doSerialise_below (h : s.BUF.below s.bufCap) : (s.doSerialise x y).BUF.below s.bufCap := by
  rw [State.doSerialise_BUF]
  refine Memory.writeBytes_below h _ _ ?_
  have := s.le_bufCap
  rw [ser_length]
  omega

/-- What a serialisation leaves in each byte (R181): the 64 bytes of the point, the old bytes above. -/
theorem State.doSerialise_read (h : s.BUF.wf) (a : Nat) :
    (s.doSerialise x y).BUF.read a = if a < 64 then (ser x y).getD a 0 else s.BUF.read a := by
  rw [State.doSerialise_BUF, Memory.read_writeBytes h, ser_length]
  simp

/-- The first 64 bytes of the buffer are then the serialised point (R181). -/
theorem State.doSerialise_readBytes (h : s.BUF.wf) : (s.doSerialise x y).BUF.readBytes 0 64 = ser x y := by
  apply List.ext_getElem (by simp)
  intro k h1 h2
  have hk : k < 64 := by simpa using h1
  have := Memory.readBytes_getD (s.doSerialise x y).BUF 0 64 k hk
  rw [Nat.zero_add, State.doSerialise_read s x y h, if_pos hk] at this
  simpa [List.getD_eq_getElem?_getD, h1, h2, hk] using this

/-- A serialised key fits the buffer with its padding (R183: "the remaining checks cannot fail"). -/
theorem State.doSerialise_fits : (s.doSerialise x y).MLEN.toNat < (s.doSerialise x y).bufCap := by
  have h := s.le_bufCap
  rw [State.doSerialise_MLEN, State.doSerialise_bufCap]
  exact Nat.lt_of_lt_of_le (by decide) h

end Sys2Proof.Machine
end

