-- ==== Sys2Proof/Laws/Prime.lean ====
section
/-! SUPPORT. The field prime is prime (spec/42_field_arithmetic.md R140 says so from general knowledge), by a chain of
primitive roots whose powers are computed with the model's own `modpow`. -/

namespace Sys2Proof.Machine

/-- A number with an element of order `p - 1` is prime: the powers are checked with `modpow`, the primes that divide
`p - 1` are those of the list. -/
theorem prime_of_primitive_root {p a : Nat} {fs : List Nat} (hp : 1 < p) (hone : modpow a (p - 1) p = 1)
    (hprod : fs.prod = p - 1) (hf : ∀ q ∈ fs, q.Prime) (hd : ∀ q ∈ fs, modpow a ((p - 1) / q) p ≠ 1) : p.Prime := by
  have cast : ∀ n, modpow a n p = 1 ↔ ((a : ZMod p)) ^ n = 1 := by
    intro n
    have h := ZMod.natCast_eq_natCast_iff (a ^ n) 1 p
    rw [Nat.cast_pow, Nat.cast_one, Nat.ModEq, Nat.mod_eq_of_lt hp] at h
    rw [modpow_eq, h]
  refine lucas_primality p (a : ZMod p) ((cast _).1 hone) fun q hq hqd h => ?_
  rw [← hprod] at hqd
  obtain ⟨r, hr, hqr⟩ := (hq.prime.dvd_prod_iff).1 hqd
  have : q = r := (Nat.prime_dvd_prime_iff_eq hq (hf r hr)).1 hqr
  exact hd q (this ▸ hr) ((cast _).2 h)

theorem prime_chain_1 : Nat.Prime 173378833005251801 :=
  prime_of_primitive_root (a := 6) (fs := [2, 2, 2, 5, 5, 2621, 24809, 13331831]) (by decide +kernel) (by decide +kernel)
    (by decide +kernel) (by simp only [List.forall_mem_cons]; norm_num) (by decide +kernel)

theorem prime_chain_2 : Nat.Prime 22149492674086928081353 :=
  prime_of_primitive_root (a := 5) (fs := [2, 2, 2, 3, 5323, 173378833005251801]) (by decide +kernel) (by decide +kernel)
    (by decide +kernel) (by simp only [List.forall_mem_cons, prime_chain_1]; norm_num) (by decide +kernel)

theorem prime_chain_3 : Nat.Prime 132896956044521568488119 :=
  prime_of_primitive_root (a := 6) (fs := [2, 3, 22149492674086928081353]) (by decide +kernel) (by decide +kernel)
    (by decide +kernel) (by simp only [List.forall_mem_cons, prime_chain_2]; norm_num) (by decide +kernel)

theorem prime_chain_4 : Nat.Prime 255515944373312847190720520512484175977 :=
  prime_of_primitive_root (a := 3) (fs := [2, 2, 2, 7, 7, 11, 1627, 2657, 4423, 41201, 96557, 7240687, 107590001])
    (by decide +kernel) (by decide +kernel) (by decide +kernel) (by simp only [List.forall_mem_cons]; norm_num) (by decide +kernel)

theorem prime_chain_5 :
    Nat.Prime 205115282021455665897114700593932402728804164701536103180137503955397371 :=
  prime_of_primitive_root (a := 10)
    (fs := [2, 3, 5, 29, 29, 31, 7723, 132896956044521568488119, 255515944373312847190720520512484175977])
    (by decide +kernel) (by decide +kernel) (by decide +kernel)
    (by simp only [List.forall_mem_cons, prime_chain_3, prime_chain_4]; norm_num) (by decide +kernel)

/-- The field prime is prime (R140, R145: "`m` (the field prime) is prime"). -/
theorem fieldPrime_prime : Nat.Prime fieldPrime.toNat :=
  prime_of_primitive_root (a := 3)
    (fs := [2, 3, 7, 13441, 205115282021455665897114700593932402728804164701536103180137503955397371])
    (by decide +kernel) (by decide +kernel) (by decide +kernel)
    (by simp only [List.forall_mem_cons, prime_chain_5]; norm_num) (by decide +kernel)

end Sys2Proof.Machine
end

