-- ==== Sys2Proof/Tests/Slice0.lean ====
section
/-! SUPPORT. The model's own tests: the format checks, decoding from words written out from spec/30_encoding.md R81 to R85
and R91, one-step vectors of spec/95 and 96, and for every statement that has hypotheses a concrete state and operands that
meet them. Expected values come from the spec's tables, never from the model. -/

namespace Sys2Proof.Tests

set_option Elab.async false

open Sys2Proof Sys2Proof.Machine

/-! ### Helpers -/

/-- The state of a next outcome; the reset state for the outcomes that the machine never gives. -/
def after : Result → State
  | .next s => s
  | .fault _ => State.reset
  | .refused _ => State.reset

/-- The reset state with a number in a general register. -/
def withX (r : XReg) (v : Nat) (s : State := State.reset) : State := s.setX r (BitVec.ofNat 256 v)

/-- The reset state with a point in a point register. -/
def withP (j : PReg) (pt : Point) (s : State := State.reset) : State := s.setP j pt.stored

/-- A state with the next host event on its queue. -/
def withEvent (e : HostEvent) (s : State := State.reset) : State := s.setPending [e]

/-- A 32-bit word from the fields of R81, most significant first, each written out as bits. -/
def bits (zero : BitVec 8) (d c b a : BitVec 4) (opcode : BitVec 8) : CmdWord := zero ++ d ++ c ++ b ++ a ++ opcode

/-- An instruction's check on its fields names this error. -/
def refusedBy (f : Fields) (e : FormError) : Bool :=
  match f.check with
  | .ok _ => false
  | .error e' => decide (e' = e)

/-! ### WellFormed: one ill-formed value for each check -/

theorem test_form_topByte : refusedBy { zero := 1, d := 0, c := 0, b := 0, a := 0, opcode := 0x02 } .topByteNonZero = true := by
  decide

theorem test_form_opcode : refusedBy { zero := 0, d := 0, c := 0, b := 0, a := 0, opcode := 0x00 } .opcodeUnassigned = true := by
  decide

theorem test_form_unusedN :
    refusedBy { zero := 0, d := 0, c := 0, b := 0, a := 1, opcode := 0x01 } .unusedFieldNonZero = true := by decide

theorem test_form_unusedM3 :
    refusedBy { zero := 0, d := 0, c := 1, b := 0, a := 2, opcode := 0x12 } .unusedFieldNonZero = true := by decide

theorem test_form_unusedP3 :
    refusedBy { zero := 0, d := 1, c := 0, b := 0, a := 0, opcode := 0x20 } .unusedFieldNonZero = true := by decide

theorem test_form_unusedPR :
    refusedBy { zero := 0, d := 0, c := 0, b := 0, a := 1, opcode := 0x24 } .unusedFieldNonZero = true := by decide

theorem test_form_pointIndex :
    refusedBy { zero := 0, d := 0, c := 0, b := 0, a := 4, opcode := 0x20 } .pointIndexRange = true := by decide

theorem test_form_constIndex :
    refusedBy { zero := 0, d := 0, c := 0, b := 4, a := 0, opcode := 0x13 } .constIndexRange = true := by decide

theorem test_form_accepts : WellFormedWord 0x00F21310#32 = true := by decide

/-! ### Decoding: one word of every command, bit by bit -/

theorem test_decode_kinit : decode (bits 0b00000000 0b0000 0b0000 0b0000 0b0000 0b00000001) = .ok .kinit := by decide

theorem test_decode_kf : decode (bits 0b00000000 0b0000 0b0000 0b0000 0b0000 0b00000010) = .ok .kf := by decide

theorem test_decode_kpad : decode (bits 0b00000000 0b0000 0b0000 0b0000 0b0000 0b00000011) = .ok .kpad := by decide

theorem test_decode_kabsorb :
    decode (bits 0b00000000 0b0001 0b0010 0b0011 0b0100 0b00000100) = .ok (.kabsorb 4660) := by decide

theorem test_decode_ksqueeze : decode (bits 0b00000000 0b0000 0b0000 0b0000 0b0000 0b00000101) = .ok .ksqueeze := by
  decide

theorem test_decode_khash : decode (bits 0b00000000 0b0000 0b0000 0b0000 0b0000 0b00000110) = .ok .khash := by decide

theorem test_decode_modmul :
    decode (bits 0b00000000 0b1111 0b0010 0b0001 0b0011 0b00010000) = .ok (.modmul 3 1 2 15) := by decide

theorem test_decode_modpow :
    decode (bits 0b00000000 0b1111 0b0010 0b0001 0b0100 0b00010001) = .ok (.modpow 4 1 2 15) := by decide

theorem test_decode_modinv :
    decode (bits 0b00000000 0b1111 0b0000 0b0001 0b0010 0b00010010) = .ok (.modinv 2 1 15) := by decide

theorem test_decode_ldc : decode (bits 0b00000000 0b0000 0b0000 0b0010 0b0001 0b00010011) = .ok (.ldc 1 .gx) := by decide

theorem test_decode_padd : decode (bits 0b00000000 0b0000 0b0000 0b0001 0b0010 0b00100000) = .ok (.padd 2 1 0) := by
  decide

theorem test_decode_pdbl : decode (bits 0b00000000 0b0000 0b0000 0b0000 0b0001 0b00100001) = .ok (.pdbl 1 0) := by decide

theorem test_decode_smul : decode (bits 0b00000000 0b0000 0b0010 0b0111 0b0011 0b00100010) = .ok (.smul 3 7 2) := by
  decide

theorem test_decode_ldg : decode (bits 0b00000000 0b0000 0b0000 0b0000 0b0011 0b00100011) = .ok (.ldg 3) := by decide

theorem test_decode_pser : decode (bits 0b00000000 0b0000 0b0000 0b0001 0b0000 0b00100100) = .ok (.pser 1) := by decide

theorem test_decode_k2addr : decode (bits 0b00000000 0b0000 0b0000 0b0101 0b0000 0b00110000) = .ok (.k2addr 5) := by
  decide

/-- R91: the encoder writes the printed words. -/
theorem test_encode_printed :
    encode (.kabsorb 65535) = 0x00FFFF04#32 ∧ encode (.modpow 4 1 2 15) = 0x00F21411#32 ∧
    encode (.ldc 14 .n) = 0x00001E13#32 ∧ encode (.padd 3 3 3) = 0x00033320#32 ∧ encode (.pdbl 1 0) = 0x00000121#32 ∧
    encode (.ldg 3) = 0x00000323#32 := by decide

/-- R87, R91, V12: words that are no command. -/
theorem test_illegal_words :
    [0x00000000#32, 0xFFFFFFFF#32, 0x00000007#32, 0x00000101#32, 0x01000002#32, 0x00004013#32, 0x00000420#32,
      0x00100022#32, 0x00000124#32, 0x01000004#32, 0x80000010#32, 0x00008020#32, 0x00000C21#32, 0x00040022#32,
      0x00001023#32, 0x00010030#32].all (fun w => decide (decode w = .error (.illegalCommand w))) = true := by decide +kernel

/-- The host's own reading of a table word, and the instruction that the placed word runs. -/
theorem test_table_word : decodeTableWord 32 0x00F21310 = some (.modmul 3 1 2 15) ∧ decodeTableWord 32 0 = none := by
  decide

/-- R89: the assembler's examples. -/
theorem test_spelling :
    (Instr.kabsorb 1).spelling = "KABSORB 1" ∧ (Instr.modmul 3 1 2 15).spelling = "MODMUL x3, x1, x2, x15" ∧
    (Instr.ldc 15 .p).spelling = "LDC x15, p" ∧ (Instr.smul 1 0 0).spelling = "SMUL P1, x0, P0" := by decide

/-! ### Keccak -/

/-- The state of V1 before the permutation. -/
def v1Start : Lanes := (zeroLanes.set 0 0x0000000000000001).set 16 0x8000000000000000

/-- V1: two rounds; lanes 0, 8 and 24. -/
theorem test_two_rounds :
    let A := keccakRound (keccakRound v1Start 0) 1
    A[0] = 0x36305230006404E6#64 ∧ A[8] = 0x2986B00442E20013#64 ∧ A[24] = 0x2218340AD024160E#64 := by decide +kernel

/-- V1: the spot checks of the ρ and π step of round 0. -/
theorem test_rhopi :
    (rhopi (theta v1Start))[10] = 0x2#64 ∧ (rhopi (theta v1Start))[8] = 0x0000300000000000#64 ∧
    (rhopi (theta v1Start))[20] = 0x2000000000000000#64 := by decide +kernel

/-- One step of the generating rule of R101: times `x` modulo `x^8 + x^6 + x^5 + x^4 + 1`. -/
def lfsrStep (v : Nat) : Nat := if v < 128 then 2 * v else (2 * v) ^^^ 0x171

/-- R101, generating rule: bit `2^j - 1` of `RC[r]` is output `7r + j`, and no other bit is set. -/
theorem test_rc_lfsr : ∀ r : Fin 24, ∀ b : Fin 64,
    RC[r].getLsbD b.val = (List.range 7).any fun j => b.val == 2 ^ j - 1 && (lfsrStep^[7 * r.val + j] 1).testBit 0 := by
  decide +kernel

/-- R109: KINIT. -/
theorem test_kinit : (after (execKinit (State.reset.setS v1Start))).S[16] = 0#64 := by decide +kernel

/-- R122: the corner MLEN = 135 (one byte is first and last) and the last message that fits. -/
theorem test_kpad_corners :
    (after (execKpad (State.reset.setMLEN 135))).BUF = [(135, 0x81#8)] ∧
    (after (execKpad (State.reset.setMLEN 271))).PLEN = 272#64 := by decide +kernel

/-- R122: MLEN = 136 adds a whole block. -/
theorem test_kpad_block : (after (execKpad (State.reset.setMLEN 136))).BUF = [(136, 0x01#8), (271, 0x80#8)] := by
  decide +kernel

/-- V13: KABSORB of a block that is not there; MLEN = 2^64 - 1 does not wrap. -/
theorem test_overflow_faults :
    (after (execKabsorb 2 State.reset)).STATUS = 0x0000020400000201#64 ∧
    (after (execKpad (State.reset.setMLEN 0xFFFFFFFFFFFFFFFF))).STATUS = 0x0000000300000201#64 ∧
    (after (execKhash (State.reset.setMLEN 272))).STATUS = 0x0000000600000201#64 := by decide +kernel

/-- R123: the XOR half of KABSORB 0 on the padded empty message. -/
theorem test_absorb_xor :
    xorBlock zeroLanes ((after (execKpad State.reset)).BUF.readBytes 0 136) = v1Start := by decide +kernel

/-- R125: digest bytes of `S[0] = 0x3C23F7860146D2C5`. -/
theorem test_ksqueeze :
    (after (execKsqueeze (State.reset.setS (zeroLanes.set 0 0x3C23F7860146D2C5)))).DIG.toList.take 8 =
      [0xC5, 0xD2, 0x46, 0x01, 0x86, 0xF7, 0x23, 0x3C] := by decide +kernel

/-- V3: KHASH of the empty message, the four words of DIG. -/
theorem test_khash_empty :
    (List.range 4).map (fun j => (after (execKhash State.reset)).busRead 64 (0x0040 + 8 * j)) =
      [.data 0x3C23F7860146D2C5, .data 0xC003C7DCB27D7E92, .data 0x3B2782CA53B600E5, .data 0x70A4855D04D8FA7B] := by
  decide +kernel

/-! ### Modular arithmetic -/

/-- R143: `2^256 - 1` squared modulo `p`; aliasing of every operand. -/
theorem test_modmul :
    (after (execModmul 1 1 1 2 (withX 1 (2 ^ 256 - 1) (withX 2 fieldPrime.toNat)))).x[1].toNat =
      0x000000000000000000000000000000000000000000000001000007A0000E8900 ∧
    (after (execModmul 3 1 2 15 State.reset)).STATUS = 0x00F2131000000301#64 := by decide +kernel

/-- R144, V6: 2^10 mod 1000; `0^0` with modulus 1; modulus 0. -/
theorem test_modpow :
    (after (execModpow 4 1 2 15 (withX 1 2 (withX 2 10 (withX 15 1000))))).x[4].toNat = 24 ∧
    (after (execModpow 4 1 2 15 (withX 15 1))).x[4].toNat = 0 ∧
    (after (execModpow 4 1 2 15 State.reset)).STATUS = 0x00F2141100000301#64 := by decide +kernel

/-- R146: the inverse of 2 modulo `p`; `modinv(2, 9)`; modulus 1. -/
theorem test_modinv :
    (after (execModinv 2 1 15 (withX 1 2 (withX 15 fieldPrime.toNat)))).x[2].toNat =
      0x7FFFFFFFFFFFFFFFFFFFFFFFFFFFFFFFFFFFFFFFFFFFFFFFFFFFFFFF7FFFFE18 ∧
    (after (execModinv 2 1 15 (withX 1 2 (withX 15 9)))).x[2].toNat = 2 ∧
    (after (execModinv 2 1 15 (withX 15 1))).STATUS = 0x00F0121200000301#64 := by decide +kernel

/-- R55, R147: the words of `Gx` after LDC. -/
theorem test_ldc :
    (List.range 4).map (fun w => (after (execLdc 3 .gx State.reset)).busRead 64 (0x0260 + 8 * w)) =
      [.data 0x59F2815B16F81798, .data 0x029BFCDB2DCE28D9, .data 0x55A06295CE870B07, .data 0x79BE667EF9DCBBAC] := by
  decide +kernel

/-! ### Curve points -/

/-- 2G (R164). -/
def twoG : Point :=
  .pt 0xC6047F9441ED7D6D3045406E95C07CD85C778E4B8CEF3CA7ABAC09B95C709EE5
    0x1AE168FEA63DC339A3C58419466CEAEEF7F632653266D0E1236431A950CFE52A

/-- 3G (R163). -/
def threeG : Point :=
  .pt 0xF9308A019258C31049344F85F89D5229B531C845836F99B08601F113BCE036F9
    0x388F7B0F632DE8140FE337E62A37F3566500A99934C2231B6CB9FD7584B8E672

theorem test_padd :
    (after (execPadd 2 1 0 (withP 0 generator (withP 1 twoG)))).readPoint 2 = threeG ∧
    (after (execPadd 2 1 0 (withP 0 .inf (withP 1 .inf)))).P[2] = { inf := true, x := 0, y := 0 } := by decide +kernel

/-- R163: the identity copies the other operand unreduced; all three indices equal. -/
theorem test_padd_copies :
    (after (execPadd 2 1 0 (withP 0 .inf (withP 1 (.pt (2 ^ 256 - 1) 1))))).readPoint 2 = .pt (2 ^ 256 - 1) 1 ∧
    (after (execPadd 3 3 3 (withP 3 generator))).readPoint 3 = twoG := by decide +kernel

theorem test_pdbl :
    (after (execPdbl 1 0 (withP 0 generator))).readPoint 1 = twoG ∧
    (after (execPdbl 0 0 (withP 0 (.pt 5 0)))).readPoint 0 = .pt (fieldPrime - 10) 0 := by decide +kernel

/-- R165, R166: destination equal to source; scalar 0; `smul(3, Pt(1, 2))` off the curve. -/
theorem test_smul :
    (after (execSmul 0 0 0 (withP 0 generator (withX 0 3)))).readPoint 0 = threeG ∧
    (after (execSmul 1 0 0 (withP 0 generator))).P[1] = { inf := true, x := 0, y := 0 } ∧
    smul 3 (.pt 1 2) =
      .pt 0x00D76FED2634D974F9C5C3BEB212839E61488AB00D76FED2634D974F9B84CBFC
        0x17DD9410CBE7E257C58C812D0F481E6AAC999EAE9EAB4E2D908B464E4E0B5070 := by decide +kernel

/-- R169: opposite points; equality is of the stored values. -/
theorem test_padd_exceptional :
    padd generator (.pt genX (fieldPrime - genY)) =
      .pt 0x0C8333020C4688A754BF3AD462F1E9F1FAC80649A463AE4D4C1AFD48D20FCCFF
        0xB7C52588D95C3B9AA25B0403F1EEF75702E84BB7597AABE663B82F6F04EF2777 ∧
    padd (.pt 1 2) (.pt (1 + fieldPrime) 2) = .pt (fieldPrime - 2) (fieldPrime - 2) := by decide +kernel

/-- R167, V14: LDG P1, and the words read back. -/
theorem test_ldg :
    (after (execLdg 1 State.reset)).busRead 64 0x0480 = .data 0x59F2815B16F81798 ∧
    (after (execLdg 1 State.reset)).busRead 64 0x04A0 = .data 0x9C47D08FFB10D4B8 ∧
    (after (execLdg 1 (withP 1 .inf))).busRead 64 0x04C0 = .data 0 := by decide +kernel

/-! ### The pipeline -/

/-- R181: the first and last buffer words after PSER of G; the identity faults. -/
theorem test_pser :
    (after (execPser 1 (withP 1 generator))).busRead 64 0x1000 = .data 0xACBBDCF97E66BE79 ∧
    (after (execPser 1 (withP 1 generator))).busRead 64 0x1038 = .data 0xB8D410FB8FD0479C ∧
    (after (execPser 1 (withP 1 .inf))).STATUS = 0x0000102400000401#64 := by decide +kernel

/-- R183: the address of the key 1. -/
theorem test_k2addr :
    (List.range 3).map (fun j => (after (execK2addr 0 (withX 0 1))).busRead 64 (0x0048 + 8 * j)) =
      [.data 0x52455F7EDF988340, .data 0xB7FC5D5D12691A09, .data 0xDF5B39299065C2B8] := by decide +kernel

/-- R217 (e): the key 0. -/
theorem test_k2addr_zero : (after (execK2addr 0 State.reset)).STATUS = 0x0000003000000401#64 := by decide +kernel

/-! ### The bus and faults -/

/-- R217 (a), (b), (g): illegal words, one of them with a zero modulus as well. -/
theorem test_illegal_faults :
    (after (step (withEvent (.write 64 0 0x00000000)))).STATUS = 0x0000000000000101#64 ∧
    (after (step (withEvent (.write 64 0 0x00000124)))).STATUS = 0x0000012400000101#64 ∧
    (after (step (withEvent (.write 64 0 0x00F11312)))).STATUS = 0x00F1131200000101#64 := by decide +kernel

/-- A state with the fault of R217 (e) recorded. -/
def faultedState : State := State.reset.raise .identityOperand 0x00000030

/-- R217 (f), V13: a dropped command, a FAULTCLR write of bit 0 = 0, and one that clears. -/
theorem test_faulted :
    (after (step (withEvent (.write 64 0 0x01) (faultedState.setS v1Start)))).S = v1Start ∧
    (after (step (withEvent (.write 64 0x10 0) faultedState))).STATUS = 0x0000003000000401#64 ∧
    (after (step (withEvent (.write 64 0x10 0xFFFFFFFFFFFFFFFF) faultedState))).STATUS = 0#64 := by decide +kernel

/-- V12: bits 63:32 of the data of a CMD write are ignored. -/
theorem test_cmd_high_bits :
    (after (step (withEvent (.write 64 0 0xFFFFFFFF00000001) (State.reset.setS v1Start)))).S = zeroLanes := by
  decide +kernel

/-- V14: reads that are refused, and the last word of each range. -/
theorem test_bus_reads :
    (∀ off ∈ [0x0000, 0x0010, 0x0030, 0x0060, 0x01C8, 0x0448, 0x0600, 0x1110, 0x0104],
      State.reset.busRead 64 off = .busError) ∧
    State.reset.busRead 32 0x0008 = .busError ∧ State.reset.busRead 64 0x0028 = .data 0x110 ∧
    State.reset.busRead 64 0x01C0 = .data 0 ∧ State.reset.busRead 64 0x1108 = .data 0 := by decide +kernel

/-- V14: writes that are refused. -/
theorem test_bus_writes_refused :
    ∀ off ∈ [0x0008, 0x0020, 0x0028, 0x0040, 0x0100],
      (after (step (withEvent (.write 64 off 1)))).replies = [.busError] := by decide +kernel

/-- V14: `P0.inf` takes bit 0 only; a buffer word; a register word. -/
theorem test_bus_writes :
    (after (step (withEvent (.write 64 0x0440 3)))).P[0] = { inf := true, x := 0, y := 0 } ∧
    (after (step (withEvent (.write 64 0x0440 0xFFFFFFFFFFFFFFFE)))).P[0].inf = false ∧
    (after (step (withEvent (.write 64 0x1000 0x0000000000636261)))).BUF = [(0, 0x61#8), (1, 0x62#8), (2, 0x63#8)] ∧
    (after (step (withEvent (.write 64 0x0218 0x8000000000000000) (withX 0 5)))).x[0].toNat = 2 ^ 255 + 5 := by
  decide +kernel

/-- The contents that State.reset holds are one of the draws of the reset event. -/
def zeroDraw : ResetDraw :=
  { S := Vector.replicate 25 0, x := Vector.replicate 16 0, P := Vector.replicate 4 { inf := false, x := 0, y := 0 },
    DIG := Vector.replicate 32 0, BUF := [] }

theorem test_reset_draw : after (step (withEvent (.reset zeroDraw))) = State.reset := by decide +kernel

/-- The interface's placing of a word runs that word as the next step. -/
theorem test_withFetchWord :
    (after (step (faultedState.withFetchWord 32 0x00000F13))).x[15] = fieldPrime ∧
    (after (step (State.reset.withFetchWord 32 0x00000323))).readPoint 3 = generator := by decide +kernel

/-! ### Hypotheses that are met, one theorem for each statement that has any -/

theorem test_hyp_RotationIsTheRulesArithmetic :
    0 < 64 ∧ 63 < 64 ∧ rotl64 0x8000000000000001 0 = 0x8000000000000001#64 ∧ rotl64 1 63 = 0x8000000000000000#64 := by
  decide

theorem test_hyp_PadAppendsTheMultiRatePadding :
    0 < (pad []).length ∧ 135 < (pad []).length ∧ (pad []).getD 135 0 = 0x80#8 ∧
    135 < (pad (List.replicate 135 7)).length ∧ (pad (List.replicate 135 7)).getD 135 0 = 0x81#8 := by decide +kernel

theorem test_hyp_KpadPadsTheMessageInPlace :
    (State.reset.setMLEN 272).BUF.wf ∧ 136 * (State.reset.setMLEN 272).nblk ≤ (State.reset.setMLEN 272).MLEN.toNat ∧
    (State.reset.setMLEN 271).BUF.wf ∧ (State.reset.setMLEN 271).MLEN.toNat < 136 * (State.reset.setMLEN 271).nblk := by
  decide

theorem test_hyp_KabsorbAbsorbsOneBlock : State.reset.nblk ≤ (2#16).toNat ∧ (1#16).toNat < State.reset.nblk := by decide

theorem test_hyp_KhashDigestsTheMessage :
    (State.reset.setMLEN 272).BUF.wf ∧ 136 * (State.reset.setMLEN 272).nblk ≤ (State.reset.setMLEN 272).MLEN.toNat ∧
    State.reset.BUF.wf ∧ State.reset.MLEN.toNat < 136 * State.reset.nblk := by decide

theorem test_hyp_KhashEqualsItsParts : (State.reset.setMLEN 271).MLEN.toNat < (State.reset.setMLEN 271).bufCap := by
  decide

theorem test_hyp_ModmulReducesTheFullProduct :
    State.reset.x[(15 : XReg)].toNat = 0 ∧ (withX 15 1).x[(15 : XReg)].toNat ≠ 0 := by decide +kernel

theorem test_hyp_ModpowIsThePower :
    State.reset.x[(15 : XReg)].toNat = 0 ∧ (withX 15 1).x[(15 : XReg)].toNat ≠ 0 := by decide +kernel

theorem test_hyp_ModinvIsTheFermatPower :
    (withX 15 1).x[(15 : XReg)].toNat < 2 ∧ 2 ≤ (withX 15 2).x[(15 : XReg)].toNat := by decide +kernel

theorem test_hyp_FermatPowerInvertsModuloAPrime :
    2 ≤ 2 ∧ Nat.Prime 7 ∧ 3 % 7 ≠ 0 ∧ modinv 3 7 = 5 ∧ 2 < 3 ∧ 0 % 3 = 0 ∧ modinv 0 3 = 0 := by
  refine ⟨by decide, by norm_num, ?_⟩
  decide

theorem test_hyp_FieldInverseInverts : (1 : Int) % primeP ≠ 0 ∧ primeP % primeP = 0 := by decide +kernel

theorem test_hyp_OperandsMayExceedTheModulus :
    let s := withX 1 3 (withX 2 5 (withX 15 7))
    let s' := withX 1 10 (withX 2 5 (withX 15 7))
    s'.x[(15 : XReg)] = s.x[(15 : XReg)] ∧ s.x[(15 : XReg)].toNat ≠ 0 ∧
    s'.x[(1 : XReg)].toNat % s.x[(15 : XReg)].toNat = s.x[(1 : XReg)].toNat % s.x[(15 : XReg)].toNat ∧
    s'.x[(2 : XReg)].toNat % s.x[(15 : XReg)].toNat = s.x[(2 : XReg)].toNat % s.x[(15 : XReg)].toNat ∧
    s'.x[(2 : XReg)] = s.x[(2 : XReg)] := by decide +kernel

theorem test_hyp_SmulGivesTheIdentityOnlyForZero : smul 0 (.pt 1 2) = .inf ∧ smul 1 (.pt 1 2) ≠ .inf := by decide +kernel

theorem test_hyp_ExceptionalAdditionsHaveSlopeZero :
    ¬ ((1 : XWord) = 1 + fieldPrime ∧ (2 : XWord) = 2) ∧
    ((1 : XWord).toNat : Int) % primeP = ((1 + fieldPrime).toNat : Int) % primeP ∧
    ((0 : XWord).toNat : Int) % primeP = 0 ∧ (fieldPrime.toNat : Int) % primeP = 0 := by decide +kernel

theorem test_hyp_DoublingReducesItsOperand :
    ((1 : XWord).toNat : Int) = ((1 + fieldPrime).toNat : Int) % primeP ∧
    ((2 : XWord).toNat : Int) = ((2 : XWord).toNat : Int) % primeP := by decide +kernel

/-- G and 2G for the chord, G twice for the tangent. -/
theorem test_hyp_PointAdditionStaysOnTheCurve :
    let X : XWord := 0xC6047F9441ED7D6D3045406E95C07CD85C778E4B8CEF3CA7ABAC09B95C709EE5
    let Y : XWord := 0x1AE168FEA63DC339A3C58419466CEAEEF7F632653266D0E1236431A950CFE52A
    (genX.toNat : Int) < primeP ∧ (genY.toNat : Int) < primeP ∧ (X.toNat : Int) < primeP ∧ (Y.toNat : Int) < primeP ∧
    OnCurve genX genY ∧ OnCurve X Y ∧ (genX = X → genY = Y ∧ genY ≠ 0#256) ∧
    (genX = genX → genY = genY ∧ genY ≠ 0#256) := by
  unfold OnCurve
  decide +kernel

theorem test_hyp_PserSerialisesThePoint :
    State.reset.BUF.wf ∧ (withP 1 .inf).P[(1 : PReg)].inf = true ∧ (withP 1 generator).P[(1 : PReg)].inf = false := by
  decide +kernel

theorem test_hyp_K2addrDerivesTheAddress :
    State.reset.BUF.wf ∧ State.reset.x[(0 : XReg)].toNat = 0 ∧ (withX 0 1).x[(0 : XReg)].toNat ≠ 0 := by decide +kernel

theorem test_hyp_K2addrEqualsTheLongRoute :
    State.reset.x[(0 : XReg)].toNat = 0 ∧ (withX 0 1).x[(0 : XReg)].toNat ≠ 0 := by decide +kernel

theorem test_hyp_K2addrReadsOnlyItsKey :
    (withX 0 1).BUF.wf ∧ ((withX 5 1).setMLEN 9).BUF.wf ∧
    ((withX 5 1).setMLEN 9).x[(5 : XReg)] = (withX 0 1).x[(0 : XReg)] ∧ (withX 0 1).x[(0 : XReg)].toNat ≠ 0 := by
  decide +kernel

theorem test_hyp_DecodeOfEncodeIsTheInstruction :
    (Instr.kabsorb 65535).wellFormed = true ∧ (Instr.modmul 15 15 15 15).wellFormed = true ∧
    (Instr.smul 3 15 3).wellFormed = true := by decide

theorem test_hyp_EncodeOfDecodeIsTheWord : decode 0x0003F322#32 = .ok (.smul 3 15 3) := by decide

theorem test_hyp_LegalWordsAreTheWellFormedOnes :
    WellFormedWord 0x00003F13#32 = true ∧ WellFormedWord 0x00004013#32 = false := by decide

theorem test_hyp_AtMostOneRowAcceptsAWord :
    opcodeTable[(⟨9, by decide⟩ : Fin opcodeTable.length)].accepts 0x00003F13#32 = true := by decide

theorem test_hyp_StepRunsTheDecodedCommand :
    (withEvent (.write 64 0 0x23)).pending = [.write 64 0x0000 0x23] ∧ (withEvent (.write 64 0 0x23)).faulted = false ∧
    decode ((0x23 : Lane).extractLsb' 0 32) = .ok (.ldg 0) ∧
    after (exec (.ldg 0) ((withEvent (.write 64 0 0x23)).setPending [])) = withP 0 generator := by decide +kernel

theorem test_hyp_FetchWordRunsItsCommand :
    0x00000323 < 2 ^ 32 ∧ decodeTableWord 32 0x00000323 = some (.ldg 3) ∧ faultedState.faulted = true ∧
    State.reset.faulted = false := by decide

theorem test_hyp_CommandsAreDroppedWhileFaulted : faultedState.faulted = true := by decide

theorem test_hyp_IllegalWordsFault :
    State.reset.faulted = false ∧ WellFormedWord ((0xFFFFFFFF00000124 : Lane).extractLsb' 0 32) = false := by decide

/-- Each kind of refusal at a boundary of its range, and the accesses just inside. -/
theorem test_hyp_BusRefusesExactlyTheIllegalAccesses :
    (withEvent (.read 32 0x0008)).pending = [.read 32 0x0008] ∧
    refusedByBus State.reset (.read 32 0x0008) ∧ refusedByBus State.reset (.read 64 0x0104) ∧
    refusedByBus State.reset (.read 64 0x0000) ∧ refusedByBus State.reset (.write 64 0x01C0 0) ∧
    refusedByBus State.reset (.write 64 0x0030 0) ∧ refusedByBus State.reset (.read 64 0x05F8) ∧
    refusedByBus State.reset (.read 64 0x1110) ∧ ¬ refusedByBus State.reset (.read 64 0x1108) ∧
    ¬ refusedByBus State.reset (.write 64 0x0440 0) ∧ ¬ refusedByBus State.reset (.write 64 0x0010 0) ∧
    ¬ refusedByBus State.reset (.reset zeroDraw) := by
  have hc : State.reset.bufCap = 272 := rfl
  refine ⟨rfl, ?_⟩
  simp [refusedByBus, unmapped, writeOnly, readOnly, hc]

theorem test_hyp_ReadsReturnTheRegisterMap : 8 * 0 < State.reset.bufCap ∧ 8 * 33 < State.reset.bufCap ∧ 7 < 8 := by decide

theorem test_hyp_BufferWritesReplaceEightBytes :
    State.reset.BUF.wf ∧ 8 * 0 < State.reset.bufCap ∧ 8 * 33 < State.reset.bufCap := by decide

theorem test_hyp_ResetClearsControlStateAndDrawsTheRest : 271 < State.reset.bufCap ∧ ¬ 272 < State.reset.bufCap := by decide

/-- The invariant holds of a state that is not the reset state, and a step is taken from it. -/
theorem test_hyp_StepKeepsTheInvariant :
    (withEvent (.write 64 0x1000 0x61)).Inv ∧
    (after (step (withEvent (.write 64 0x1000 0x61)))).BUF = [(0, 0x61#8)] :=
  ⟨⟨by decide, by decide, ⟨by decide, by decide, by decide, by decide, by decide⟩, by decide, by decide⟩, by decide +kernel⟩

theorem test_hyp_BlockAtRestKeepsItsState : State.reset.pending = [] := rfl

/-- STATUS changes by a fault, by FAULTCLR and by reset. -/
theorem test_hyp_StatusChangesOnlyByFaultClearOrReset :
    (after (step (withEvent (.write 64 0 0)))).STATUS ≠ (withEvent (.write 64 0 0)).STATUS ∧
    (after (step (withEvent (.write 64 0x10 1) faultedState))).STATUS ≠ faultedState.STATUS ∧
    (after (step (withEvent (.reset zeroDraw) faultedState))).STATUS ≠ faultedState.STATUS := by decide +kernel

theorem test_hyp_FaultsArePrecise :
    (withEvent (.write 64 0 0x30)).faulted = false ∧ (after (step (withEvent (.write 64 0 0x30)))).faulted = true := by
  decide +kernel

theorem test_hyp_CommandsWriteOnlyTheirOwnParts :
    (after (exec (.k2addr 0) State.reset)).STATUS ≠ State.reset.STATUS ∧ State.reset.BUF.wf ∧
    State.reset.MLEN.toNat < State.reset.paddedLen ∧ (after (exec .kpad State.reset)).BUF.read 135 = 0x80 := by
  decide +kernel

/-- The lanes change by KINIT and by reset. -/
theorem test_hyp_LanesChangeOnlyByKeccakCommands :
    (after (step (withEvent (.write 64 0 0x01) (State.reset.setS v1Start)))).S ≠ v1Start ∧
    (after (step (withEvent (.reset zeroDraw) (State.reset.setS v1Start)))).S ≠ v1Start := by decide +kernel

theorem test_hyp_CapacityNeverChanges :
    after (step (withEvent (.read 64 0x0028))) = State.reset.pushReply (.data 272) := by decide +kernel

end Sys2Proof.Tests
end

/-! PROOFS. The lane rotation (R10). `rotl64` is an OR of two shifts and the rule is a sum: they agree because the left shift
leaves the low `r` bits clear and the right shift puts nothing outside them, so that no bit of the sum carries. -/

namespace Sys2Proof.Machine

/-- A rotation by 0 is a wire-through: the right shift is then by 64 and gives 0. -/
@[simp] theorem rotl64_zero (v : Lane) : rotl64 v 0 = v := by
  simp [rotl64, BitVec.ushiftRight_eq_zero]

/-- A bit of the left half stands at `r` or above, a bit of the right half below `r`. -/
theorem shiftLeft_and_ushiftRight_eq_zero (v : Lane) {r : Nat} (hr : r ≤ 64) :
    (v <<< r) &&& (v >>> (64 - r)) = 0#64 := by
  ext i hi
  simp only [BitVec.getElem_and, BitVec.getElem_shiftLeft, BitVec.getElem_ushiftRight, BitVec.getElem_zero]
  by_cases hir : i < r
  · simp [hir]
  · have above : v.getLsbD (64 - r + i) = false := BitVec.getLsbD_of_ge v _ (by omega)
    simp [above]

theorem toNat_rotl64 (v : Lane) {r : Nat} (hr : r ≤ 64) :
    (rotl64 v r).toNat = v.toNat * 2 ^ r % 2 ^ 64 + v.toNat / 2 ^ (64 - r) := by
  have disjoint := shiftLeft_and_ushiftRight_eq_zero v hr
  calc (rotl64 v r).toNat
      = (v <<< r + v >>> (64 - r)).toNat := by rw [rotl64, BitVec.add_eq_or_of_and_eq_zero _ _ disjoint]
    _ = (v <<< r).toNat + (v >>> (64 - r)).toNat := BitVec.toNat_add_of_and_eq_zero disjoint
    _ = v.toNat * 2 ^ r % 2 ^ 64 + v.toNat / 2 ^ (64 - r) := by
      rw [BitVec.toNat_shiftLeft, BitVec.toNat_ushiftRight, Nat.shiftLeft_eq, Nat.shiftRight_eq_div_pow]

/-- Settles O2: a rotation by 0 is set apart as R10 does; any other is the sum of its two disjoint halves. -/
theorem rotationIsTheRulesArithmetic : Obligations.RotationIsTheRulesArithmetic := by
  intro v r hr
  split
  case isTrue h => rw [h, rotl64_zero]
  case isFalse => exact toNat_rotl64 v hr.le

end Sys2Proof.Machine

/-! PROOFS. What a command can do (R35, R202): every command answers a next state, which is one of a few updates of the state.
The frames, the invariant and the facts about STATUS and the lanes are read off this list. -/

namespace Sys2Proof.Machine

/-- The state a command leaves, by the kind of its outcome: a recorded fault, or the update of a part that the access summary
(R35) gives to the command, KPAD and KHASH once their check has passed. -/
inductive CommandEffect : Instr → State → State → Prop where
  | fault {i : Instr} {s : State} (c : FaultCause) (h : mayWrite i s .status) : CommandEffect i s (s.raise c (encode i))
  | lanes {i : Instr} {s : State} (v : Lanes) (h : mayWrite i s .lanes) : CommandEffect i s (s.setS v)
  | register {i : Instr} {s : State} (rd : XReg) (v : XWord) (h : mayWrite i s (.x rd)) : CommandEffect i s (s.setX rd v)
  | point {i : Instr} {s : State} (pd : PReg) (v : PointReg) (h : mayWrite i s (.P pd)) : CommandEffect i s (s.setP pd v)
  | digest {i : Instr} {s : State} (v : Vector Byte 32) (h : mayWrite i s .dig) : CommandEffect i s (s.setDIG v)
  | pad {s : State} (fits : s.paddedLen ≤ s.bufCap) : CommandEffect .kpad s s.doKpad
  | hash {s : State} (fits : s.paddedLen ≤ s.bufCap) : CommandEffect .khash s s.doKhash
  | serialise {s : State} (pa : PReg) (x y : XWord) : CommandEffect (.pser pa) s (s.doSerialise x y)
  | derive {s : State} (rk : XReg) (x y : XWord) : CommandEffect (.k2addr rk) s (s.doSerialise x y).doKhash

/-- A command with an operand check leaves the fault or its result. -/
theorem checked_effect {i : Instr} {s t : State} {failed : Prop} [Decidable failed] (c : FaultCause)
    (hs : mayWrite i s .status) (ht : ¬ failed → CommandEffect i s t) :
    ∃ u, (if failed then .next (s.raise c (encode i)) else .next t : Result) = .next u ∧ CommandEffect i s u := by
  by_cases h : failed
  · exact ⟨_, if_pos h, .fault c hs⟩
  · exact ⟨_, if_neg h, ht h⟩

theorem execPser_effect (pa : PReg) (s : State) : ∃ t, execPser pa s = .next t ∧ CommandEffect (.pser pa) s t := by
  cases h : s.readPoint pa with
  | inf => exact ⟨_, by rw [execPser, h], .fault .identityOperand (.inr (.inr rfl))⟩
  | pt x y => exact ⟨_, by rw [execPser, h], .serialise pa x y⟩

theorem execK2addr_effect (rk : XReg) (s : State) :
    ∃ t, execK2addr rk s = .next t ∧ CommandEffect (.k2addr rk) s t := by
  cases h : smul (s.readX rk).toNat generator with
  | inf => exact ⟨_, by rw [execK2addr, h], .fault .identityOperand (by simp [mayWrite])⟩
  | pt x y => exact ⟨_, by rw [execK2addr, h], .derive rk x y⟩

/-- Every command answers a next state, with one of the listed effects (R202, R235). -/
theorem exec_effect (i : Instr) (s : State) : ∃ t, exec i s = .next t ∧ CommandEffect i s t := by
  cases i with
  | kinit => exact ⟨_, rfl, .lanes _ rfl⟩
  | kf => exact ⟨_, rfl, .lanes _ rfl⟩
  | kpad => exact checked_effect .bufferOverflow (.inr (.inr rfl)) fun h => .pad (Nat.le_of_not_gt h)
  | kabsorb b => exact checked_effect .bufferOverflow (.inr rfl) fun _ => .lanes _ (.inl rfl)
  | ksqueeze => exact ⟨_, rfl, .digest _ rfl⟩
  | khash => exact checked_effect .bufferOverflow (by simp [mayWrite]) fun h => .hash (Nat.le_of_not_gt h)
  | modmul rd rs1 rs2 rm => exact checked_effect .modulusRange (.inr rfl) fun _ => .register rd _ (.inl rfl)
  | modpow rd rs1 rs2 rm => exact checked_effect .modulusRange (.inr rfl) fun _ => .register rd _ (.inl rfl)
  | modinv rd rs1 rm => exact checked_effect .modulusRange (.inr rfl) fun _ => .register rd _ (.inl rfl)
  | ldc rd c => exact ⟨_, rfl, .register rd _ rfl⟩
  | padd pd pa pb => exact ⟨_, rfl, .point pd _ rfl⟩
  | pdbl pd pa => exact ⟨_, rfl, .point pd _ rfl⟩
  | smul pd rk pa => exact ⟨_, rfl, .point pd _ rfl⟩
  | ldg pd => exact ⟨_, rfl, .point pd _ rfl⟩
  | pser pa => exact execPser_effect pa s
  | k2addr rk => exact execK2addr_effect rk s

/-- STATUS after a command is the old one, or the command has recorded a fault and done nothing else (R203, R208). -/
theorem CommandEffect.status {i : Instr} {s t : State} (h : CommandEffect i s t) :
    t.STATUS = s.STATUS ∨ ∃ c, t = s.raise c (encode i) := by
  cases h with
  | fault c h => exact .inr ⟨c, rfl⟩
  | lanes v h => exact .inl rfl
  | register rd v h => exact .inl rfl
  | point pd v h => exact .inl rfl
  | digest v h => exact .inl rfl
  | pad fits => exact .inl rfl
  | hash fits => exact .inl s.doKhash_STATUS
  | serialise pa x y => exact .inl (s.doSerialise_STATUS x y)
  | derive rk x y => exact .inl ((s.doSerialise x y).doKhash_STATUS.trans (s.doSerialise_STATUS x y))

/-! ### The frame of a command (R35) -/

theorem doKpad_frame (s : State) :
    keepsAllBut (fun p => bytesFrom s s.MLEN.toNat s.paddedLen p ∨ p = .plen) s s.doKpad := by
  have bytes : s.BUF.wf → ∀ a, ¬ (s.MLEN.toNat ≤ a ∧ a < s.paddedLen) → s.doKpad.BUF.read a = s.BUF.read a := by
    intro hw a ha
    rw [State.doKpad_read s hw, if_pos (by omega)]
  apply keepsAllBut_of_parts
  case byte => exact fun a => (bytesFrom_or_same bytes a).imp_left .inl
  all_goals simp

/-- KHASH changes what KPAD changes, and the lanes and the digest (R127). -/
theorem doKhash_frame {s : State} {c : Part → Prop} (hpad : keepsAllBut c s s.doKpad) (lanes : c .lanes) (dig : c .dig) :
    keepsAllBut c s s.doKhash := by
  rw [State.doKhash_eq]
  have absorb (u : State) (v : Lanes) : keepsAllBut c u (u.setS v) :=
    keepsAllBut_mono (setS_frame u v) fun p hp => hp ▸ lanes
  have capture (u : State) (v : Vector Byte 32) : keepsAllBut c u (u.setDIG v) :=
    keepsAllBut_mono (setDIG_frame u v) fun p hp => hp ▸ dig
  exact keepsAllBut_trans (keepsAllBut_trans hpad (absorb _ _)) (capture _ _)

theorem doSerialise_frame (s : State) (x y : XWord) :
    keepsAllBut (fun p => bytesFrom s 0 64 p ∨ p = .mlen) s (s.doSerialise x y) := by
  have bytes : s.BUF.wf → ∀ a, ¬ (0 ≤ a ∧ a < 64) → (s.doSerialise x y).BUF.read a = s.BUF.read a := by
    intro hw a ha
    rw [State.doSerialise_read s x y hw, if_neg (by omega)]
  apply keepsAllBut_of_parts
  case byte => exact fun a => (bytesFrom_or_same bytes a).imp_left .inl
  all_goals simp

/-- Byte ranges that widen, over buffers that are canonical together. -/
theorem bytesFrom_mono {s t : State} {lo hi lo' hi' : Nat} {p : Part} (hw : s.BUF.wf → t.BUF.wf) (hlo : lo' ≤ lo)
    (hhi : hi ≤ hi') (h : bytesFrom t lo hi p) : bytesFrom s lo' hi' p := by
  obtain ⟨a, rfl, ha⟩ := h
  exact ⟨a, rfl, fun hs => ⟨hlo.trans (ha (hw hs)).1, (ha (hw hs)).2.trans_le hhi⟩⟩

/-- K2ADDR writes the first 136 bytes: the 64 of the point, then the padding up to one block (R183). -/
theorem derive_frame (rk : XReg) (s : State) (x y : XWord) :
    keepsAllBut (mayWrite (.k2addr rk) s) s (s.doSerialise x y).doKhash := by
  have serialised : keepsAllBut (mayWrite (.k2addr rk) s) s (s.doSerialise x y) := by
    refine keepsAllBut_mono (doSerialise_frame s x y) fun p hp => ?_
    obtain hb | rfl := hp
    · exact .inr (.inl (bytesFrom_mono id le_rfl (by decide) hb))
    · simp [mayWrite]
  have padded : keepsAllBut (mayWrite (.k2addr rk) s) (s.doSerialise x y) (s.doSerialise x y).doKpad := by
    refine keepsAllBut_mono (doKpad_frame _) fun p hp => ?_
    obtain hb | rfl := hp
    · rw [State.doSerialise_paddedLen] at hb
      exact .inr (.inl (bytesFrom_mono (s.doSerialise_wf x y) (Nat.zero_le _) le_rfl hb))
    · simp [mayWrite]
  exact keepsAllBut_trans serialised (doKhash_frame padded (.inl rfl) (by simp [mayWrite]))

theorem CommandEffect.frame {i : Instr} {s t : State} (h : CommandEffect i s t) : keepsAllBut (mayWrite i s) s t := by
  cases h with
  | fault c h => exact keepsAllBut_mono (setSTATUS_frame _ _) fun p hp => hp ▸ h
  | lanes v h => exact keepsAllBut_mono (setS_frame _ _) fun p hp => hp ▸ h
  | register rd v h => exact keepsAllBut_mono (setX_frame _ _ _) fun p hp => hp ▸ h
  | point pd v h => exact keepsAllBut_mono (setP_frame _ _ _) fun p hp => hp ▸ h
  | digest v h => exact keepsAllBut_mono (setDIG_frame _ _) fun p hp => hp ▸ h
  | pad fits => exact keepsAllBut_mono (doKpad_frame s) fun p hp => hp.imp_right .inl
  | hash fits =>
    have padded : keepsAllBut (mayWrite .khash s) s s.doKpad :=
      keepsAllBut_mono (doKpad_frame s) fun p hp => .inr (hp.imp_right .inl)
    exact doKhash_frame padded (.inl rfl) (by simp [mayWrite])
  | serialise pa x y => exact keepsAllBut_mono (doSerialise_frame s x y) fun p hp => hp.imp_right .inl
  | derive rk x y => exact derive_frame rk s x y

/-- Settles O55: the frame and the precision of a fault, both read off the effect of the command. -/
theorem commandsWriteOnlyTheirOwnParts : Obligations.CommandsWriteOnlyTheirOwnParts := by
  intro i s
  obtain ⟨t, ht, effect⟩ := exec_effect i s
  refine ⟨t, ht, effect.frame, fun changed => ?_⟩
  obtain ⟨c, rfl⟩ := effect.status.resolve_left changed
  exact ⟨s.raise_faulted c _, setSTATUS_frame s _⟩

/-- NBLK is no command's to write (R35). -/
theorem CommandEffect.nblkPred {i : Instr} {s t : State} (h : CommandEffect i s t) : t.nblkPred = s.nblkPred :=
  h.frame .nblk (by cases i <;> simp [mayWrite, bytesFrom])

end Sys2Proof.Machine

/-! PROOFS. What a step can do (R52, R65): with the effect of each command known, a step is one of seven kinds of event. -/

namespace Sys2Proof.Machine

/-- The state a step leaves, by the kind of host event that took place. `answer` is every event that leaves the block as it
was: a read, a write the bus refuses, a command dropped while a fault is recorded, a write to FAULTCLR with bit 0 = 0. -/
inductive StepEffect (s : State) : State → Prop where
  | atRest (idle : s.pending = []) : StepEffect s s
  | answer {e : HostEvent} {rest : List HostEvent} (r : BusReply) (head : s.pending = e :: rest) :
      StepEffect s ((s.setPending rest).pushReply r)
  | illegal {d : Lane} {rest : List HostEvent} (head : s.pending = .write 64 0x0000 d :: rest) (ready : s.faulted = false) :
      StepEffect s (((s.setPending rest).raise .illegalCommand (d.setWidth 32)).pushReply .ok)
  | command {d : Lane} {rest : List HostEvent} {i : Instr} {t : State} (head : s.pending = .write 64 0x0000 d :: rest)
      (ready : s.faulted = false) (decoded : decode (d.setWidth 32) = .ok i)
      (effect : CommandEffect i (s.setPending rest) t) : StepEffect s (t.pushReply .ok)
  | clear {d : Lane} {rest : List HostEvent} (head : s.pending = .write 64 0x0010 d :: rest)
      (bit : d.getLsbD 0 = true) : StepEffect s ((s.setPending rest).clearFault.pushReply .ok)
  | store {off : Nat} {d : Lane} {rest : List HostEvent} {l : Loc} {t : State}
      (head : s.pending = .write 64 off d :: rest) (located : locate s.bufCap off = some l)
      (stored : (s.setPending rest).writeLoc d l = some t) : StepEffect s (t.pushReply .ok)
  | reset {draw : ResetDraw} {rest : List HostEvent} (head : s.pending = .reset draw :: rest) :
      StepEffect s ((s.setPending rest).resetBy draw)

/-- A write the host may not make is refused (R59). -/
theorem State.busWrite_refused (s : State) {off : Nat} {l : Loc} (d : Lane) (hl : locate s.bufCap off = some l)
    (hcmd : l ≠ .cmd) (hclr : l ≠ .faultclr) (hw : s.writeLoc d l = none) :
    s.busWrite 64 off d = .next (s.pushReply .busError) := by
  rw [State.busWrite, if_neg (by decide), hl]
  cases l <;> simp_all

theorem State.busWrite_cmd (s : State) (d : Lane) :
    s.busWrite 64 0x0000 d = withReply .ok (s.runWord (d.setWidth 32)) := by
  rw [State.busWrite, if_neg (by decide), locate_cmd]

theorem State.busWrite_faultclr (s : State) (d : Lane) :
    s.busWrite 64 0x0010 d = .next ((s.faultclrWrite d).pushReply .ok) := by
  rw [State.busWrite, if_neg (by decide), locate_faultclr]

/-- The CMD write of a word: dropped, illegal, or the effect of the decoded command (R58, R206). -/
theorem busWrite_cmd_effect {s : State} {d : Lane} {rest : List HostEvent}
    (head : s.pending = .write 64 0x0000 d :: rest) :
    ∃ t, (s.setPending rest).busWrite 64 0x0000 d = .next t ∧ StepEffect s t := by
  rw [State.busWrite_cmd]
  obtain ⟨-, run⟩ | ⟨ready, v, rejected, run⟩ | ⟨ready, i, decoded, run⟩ :=
    (s.setPending rest).runWord_cases (d.setWidth 32)
  · exact ⟨_, by rw [run, withReply_next], .answer .ok head⟩
  · obtain rfl := decode_error rejected
    exact ⟨_, by rw [run, withReply_next], .illegal head ready⟩
  · obtain ⟨t, ht, effect⟩ := exec_effect i (s.setPending rest)
    exact ⟨_, by rw [run, ht, withReply_next], .command head ready decoded effect⟩

theorem busWrite_faultclr_effect {s : State} {d : Lane} {rest : List HostEvent}
    (head : s.pending = .write 64 0x0010 d :: rest) :
    ∃ t, (s.setPending rest).busWrite 64 0x0010 d = .next t ∧ StepEffect s t := by
  rw [State.busWrite_faultclr]
  refine ⟨_, rfl, ?_⟩
  by_cases bit : d.getLsbD 0 = true
  · rw [State.faultclrWrite, if_pos bit]
    exact .clear head bit
  · rw [State.faultclrWrite, if_neg bit]
    exact .answer .ok head

theorem busWrite_effect {s : State} {width off : Nat} {d : Lane} {rest : List HostEvent}
    (head : s.pending = .write width off d :: rest) :
    ∃ t, (s.setPending rest).busWrite width off d = .next t ∧ StepEffect s t := by
  by_cases hw : width = 64
  case neg => exact ⟨_, by rw [State.busWrite, if_pos hw], .answer .busError head⟩
  subst hw
  cases hl : locate s.bufCap off with
  | none =>
    exact ⟨_, by rw [State.busWrite, if_neg (by decide), State.setPending_bufCap, hl], .answer .busError head⟩
  | some l =>
    by_cases hcmd : l = .cmd
    · subst hcmd
      obtain ⟨rfl, -⟩ := locate_some hl
      exact busWrite_cmd_effect head
    by_cases hclr : l = .faultclr
    · subst hclr
      obtain ⟨rfl, -⟩ := locate_some hl
      exact busWrite_faultclr_effect head
    cases stored : (s.setPending rest).writeLoc d l with
    | none => exact ⟨_, (s.setPending rest).busWrite_refused d hl hcmd hclr stored, .answer .busError head⟩
    | some t => exact ⟨_, (s.setPending rest).busWrite_located d hl stored, .store head hl stored⟩

/-- Every step answers a next state, with one of the listed effects (R65, R235). -/
theorem step_effect (s : State) : ∃ t, step s = .next t ∧ StepEffect s t := by
  cases head : s.pending with
  | nil => exact ⟨s, by rw [step, State.stepEvent, head], .atRest head⟩
  | cons e rest =>
    rw [step_of_pending head]
    cases e with
    | read width off => exact ⟨_, rfl, .answer _ head⟩
    | write width off d => exact busWrite_effect head
    | reset draw => exact ⟨_, rfl, .reset head⟩

theorem StepEffect.of_step {s t : State} (h : step s = .next t) : StepEffect s t := by
  obtain ⟨u, hu, effect⟩ := step_effect s
  obtain rfl : t = u := by simpa [h] using hu
  exact effect

/-! ### What a plain bus write stores (R55 to R57) -/

theorem State.writeLoc_cases {s t : State} {d : Lane} {l : Loc} (h : s.writeLoc d l = some t) :
    t = s.setMLEN d ∨ (∃ r v, t = s.setX r v) ∨ (∃ j v, t = s.setP j v) ∨
      ∃ q, l = .bufword q ∧ t = s.setBUF (s.BUF.writeBytes (8 * q) (le64Bytes d)) := by
  cases l with
  | mlen => exact .inl (Option.some.inj h).symm
  | xword r w => exact .inr (.inl ⟨r, _, (Option.some.inj h).symm⟩)
  | pxword j w => exact .inr (.inr (.inl ⟨j, _, (Option.some.inj h).symm⟩))
  | pyword j w => exact .inr (.inr (.inl ⟨j, _, (Option.some.inj h).symm⟩))
  | pinf j => exact .inr (.inr (.inl ⟨j, _, (Option.some.inj h).symm⟩))
  | bufword q => exact .inr (.inr (.inr ⟨q, rfl, (Option.some.inj h).symm⟩))
  | cmd | status | faultclr | plen | cap | dig | lane => simp [State.writeLoc] at h

/-- The parts that no plain bus write reaches (R53: those the host may only read). -/
theorem State.writeLoc_keeps {s t : State} {d : Lane} {l : Loc} (h : s.writeLoc d l = some t) :
    t.S = s.S ∧ t.STATUS = s.STATUS ∧ t.nblkPred = s.nblkPred := by
  obtain rfl | ⟨r, v, rfl⟩ | ⟨j, v, rfl⟩ | ⟨q, -, rfl⟩ := State.writeLoc_cases h <;> exact ⟨rfl, rfl, rfl⟩

/-! ### The invariant (R25, R26, R29, R36 b) -/

theorem statusLegal_zero : StatusLegal 0 := ⟨by decide, by decide, fun _ => rfl, by decide, by decide⟩

/-- A recorded fault has its reserved bits 0 and a cause from 1 to 4 (R29, R201). -/
theorem statusLegal_statusWord (c : FaultCause) (w : CmdWord) : StatusLegal (statusWord c w) where
  low := statusWord_low c w
  high := statusWord_high c w
  clear h := by rw [statusWord_fault] at h; contradiction
  causeLow _ := by rw [statusWord_cause]; exact c.code_toNat.1
  causeHigh _ := by rw [statusWord_cause]; exact c.code_toNat.2

variable {s t : State}

/-- The invariant speaks of four fields only. -/
theorem State.Inv.of_same (h : s.Inv) (hbuf : t.BUF = s.BUF) (hstatus : t.STATUS = s.STATUS) (hplen : t.PLEN = s.PLEN)
    (hcap : t.bufCap = s.bufCap) : t.Inv where
  bufWf := hbuf ▸ h.bufWf
  bufBelow := by rw [hbuf, hcap]; exact h.bufBelow
  status := hstatus ▸ h.status
  plenMultiple := hplen ▸ h.plenMultiple
  plenFits := by rw [hplen, hcap]; exact h.plenFits

theorem State.Inv.setBUF (h : s.Inv) {m : Memory} (hw : m.wf) (hb : m.below s.bufCap) : (s.setBUF m).Inv :=
  ⟨hw, hb, h.status, h.plenMultiple, h.plenFits⟩

theorem State.Inv.setSTATUS (h : s.Inv) {v : Lane} (hv : StatusLegal v) : (s.setSTATUS v).Inv :=
  ⟨h.bufWf, h.bufBelow, hv, h.plenMultiple, h.plenFits⟩

/-- A padded length that fits the buffer is recorded without a wrap, since BUF_CAP is below 2^64 (R122). -/
theorem paddedLen_toNat (fits : s.paddedLen ≤ s.bufCap) : (BitVec.ofNat 64 s.paddedLen).toNat = s.paddedLen := by
  obtain ⟨-, hn⟩ := s.nblk_bounds
  rw [State.bufCap, Config.rateBytes] at fits
  rw [BitVec.toNat_ofNat]
  omega

theorem State.Inv.doKpad (h : s.Inv) (fits : s.paddedLen ≤ s.bufCap) : s.doKpad.Inv where
  bufWf := s.doKpad_wf h.bufWf
  bufBelow := s.doKpad_below h.bufBelow fits
  status := h.status
  plenMultiple := by rw [State.doKpad_PLEN, paddedLen_toNat fits, s.paddedLen_mod]
  plenFits := by rw [State.doKpad_PLEN, paddedLen_toNat fits]; exact fits

theorem State.Inv.doKhash (h : s.Inv) (fits : s.paddedLen ≤ s.bufCap) : s.doKhash.Inv :=
  (h.doKpad fits).of_same s.doKhash_BUF s.doKhash_STATUS s.doKhash_PLEN s.doKhash_bufCap

theorem State.Inv.doSerialise (h : s.Inv) (x y : XWord) : (s.doSerialise x y).Inv where
  bufWf := s.doSerialise_wf x y h.bufWf
  bufBelow := by rw [State.doSerialise_bufCap]; exact s.doSerialise_below x y h.bufBelow
  status := by rw [State.doSerialise_STATUS]; exact h.status
  plenMultiple := by rw [State.doSerialise_PLEN]; exact h.plenMultiple
  plenFits := by rw [State.doSerialise_PLEN, State.doSerialise_bufCap]; exact h.plenFits

theorem CommandEffect.inv {i : Instr} (effect : CommandEffect i s t) (h : s.Inv) : t.Inv := by
  cases effect with
  | fault c may => exact h.setSTATUS (statusLegal_statusWord c _)
  | lanes v may => exact h.of_same rfl rfl rfl rfl
  | register rd v may => exact h.of_same rfl rfl rfl rfl
  | point pd v may => exact h.of_same rfl rfl rfl rfl
  | digest v may => exact h.of_same rfl rfl rfl rfl
  | pad fits => exact h.doKpad fits
  | hash fits => exact h.doKhash fits
  | serialise pa x y => exact h.doSerialise x y
  | derive rk x y =>
    exact (h.doSerialise x y).doKhash ((State.paddedLen_le_bufCap _).2 (s.doSerialise_fits x y))

/-- A buffer word inside the buffer has all its eight bytes inside: BUF_CAP is a multiple of 8 (R57). -/
theorem bufword_fits {q : Nat} (h : 8 * q < s.bufCap) : 8 * q + 8 ≤ s.bufCap := by
  rw [State.bufCap, Config.rateBytes] at *
  omega

theorem State.Inv.writeLoc {d : Lane} {l : Loc} (h : s.Inv) (hl : l.inside s.bufCap)
    (stored : s.writeLoc d l = some t) : t.Inv := by
  obtain rfl | ⟨r, v, rfl⟩ | ⟨j, v, rfl⟩ | ⟨q, rfl, rfl⟩ := State.writeLoc_cases stored
  · exact h.of_same rfl rfl rfl rfl
  · exact h.of_same rfl rfl rfl rfl
  · exact h.of_same rfl rfl rfl rfl
  · refine h.setBUF (Memory.writeBytes_wf h.bufWf _ _) (Memory.writeBytes_below h.bufBelow _ _ ?_)
    rw [le64Bytes_length]
    exact bufword_fits hl

theorem Memory.nil_wf : Memory.wf [] := ⟨.nil, by simp⟩

/-- A reset establishes the invariant from any state (R34, R230). -/
theorem resetBy_inv (s : State) (draw : ResetDraw) : (s.resetBy draw).Inv where
  bufWf := Memory.ofCells_wf Memory.nil_wf _ _
  bufBelow := Memory.ofCells_below (by simp) _
  status := statusLegal_zero
  plenMultiple := rfl
  plenFits := Nat.zero_le _

theorem StepEffect.inv (effect : StepEffect s t) (h : s.Inv) : t.Inv := by
  have waiting (rest : List HostEvent) : (s.setPending rest).Inv := h.of_same rfl rfl rfl rfl
  have answered {u : State} (r : BusReply) (hu : u.Inv) : (u.pushReply r).Inv := hu.of_same rfl rfl rfl rfl
  cases effect with
  | atRest idle => exact h
  | answer r head => exact answered r (waiting _)
  | illegal head ready => exact answered .ok ((waiting _).setSTATUS (statusLegal_statusWord _ _))
  | command head ready decoded effect => exact answered .ok (effect.inv (waiting _))
  | clear head bit => exact answered .ok ((waiting _).setSTATUS statusLegal_zero)
  | @store _ _ rest _ _ head located stored =>
    obtain ⟨-, inside⟩ := locate_some located
    exact answered .ok ((waiting rest).writeLoc inside stored)
  | reset head => exact resetBy_inv _ _

/-- Settles O50: each effect of a step keeps the invariant, a reset without needing it. -/
theorem stepKeepsTheInvariant : Obligations.StepKeepsTheInvariant :=
  fun _ _ h hst => (StepEffect.of_step hst).inv h

/-- Settles O49. -/
theorem invariantHoldsAtReset : Obligations.InvariantHoldsAtReset :=
  ⟨Memory.nil_wf, by simp [State.reset], statusLegal_zero, rfl, Nat.zero_le _⟩

/-! ### What changes STATUS, the lanes and NBLK (R22, R29, R30) -/

/-- Settles O53: of the effects of a step only a recorded fault, a cleared one and a reset touch STATUS. -/
theorem statusChangesOnlyByFaultClearOrReset : Obligations.StatusChangesOnlyByFaultClearOrReset := by
  intro s t hst changed
  cases StepEffect.of_step hst with
  | atRest idle => exact absurd rfl changed
  | answer r head => exact absurd rfl changed
  | illegal head ready => exact .inl ⟨_, _, head, ready, statusWord_fault .illegalCommand _⟩
  | command head ready decoded effect =>
    obtain ⟨c, rfl⟩ := effect.status.resolve_left changed
    exact .inl ⟨_, _, head, ready, statusWord_fault c _⟩
  | clear head bit => exact .inr (.inl ⟨_, _, head, bit, rfl⟩)
  | store head located stored =>
    obtain ⟨-, status, -⟩ := State.writeLoc_keeps stored
    exact absurd status changed
  | reset head => exact .inr (.inr ⟨_, _, head, rfl⟩)

/-- The commands whose rules give them the lanes (R22, R35). -/
theorem mayWrite_lanes {i : Instr} {s : State} (h : mayWrite i s .lanes) :
    i = .kinit ∨ i = .kf ∨ (∃ b, i = .kabsorb b) ∨ i = .khash ∨ ∃ rk, i = .k2addr rk := by
  cases i <;> simp [mayWrite, bytesFrom] at h ⊢

/-- Settles O56: a command that does not have the lanes among its parts keeps them by its frame. -/
theorem lanesChangeOnlyByKeccakCommands : Obligations.LanesChangeOnlyByKeccakCommands := by
  intro s t hst changed
  cases StepEffect.of_step hst with
  | atRest idle => exact absurd rfl changed
  | answer r head => exact absurd rfl changed
  | illegal head ready => exact absurd rfl changed
  | command head ready decoded effect =>
    rw [BitVec.setWidth_eq_extractLsb' (by decide)] at decoded
    refine .inr ⟨_, _, _, head, ready, decoded, ?_⟩
    by_contra other
    exact changed (effect.frame .lanes fun may => other (mayWrite_lanes may))
  | clear head bit => exact absurd rfl changed
  | store head located stored =>
    obtain ⟨lanes, -, -⟩ := State.writeLoc_keeps stored
    exact absurd lanes changed
  | reset head => exact .inl ⟨_, _, head⟩

theorem StepEffect.nblkPred (effect : StepEffect s t) : t.nblkPred = s.nblkPred := by
  cases effect with
  | command head ready decoded effect => exact effect.nblkPred
  | store head located stored =>
    obtain ⟨-, -, nblk⟩ := State.writeLoc_keeps stored
    exact nblk
  | atRest | answer | illegal | clear | reset => rfl

/-- Settles O57. -/
theorem capacityNeverChanges : Obligations.CapacityNeverChanges := by
  intro s t hst
  have same : t.nblk = s.nblk := congrArg (·.val + 1) (StepEffect.of_step hst).nblkPred
  exact ⟨same, by rw [State.bufCap, same]⟩

end Sys2Proof.Machine

/-! PROOFS. Bus writes with a result (R26, R30, R57) and the reset event (R34, R230). -/

namespace Sys2Proof.Machine

/-! ### A completed transaction -/

/-- A frame of what an event does becomes a frame of the step: the transaction is taken off and answered around it. -/
theorem keepsAllBut_answered {c : Part → Prop} {s u : State} {rest : List HostEvent} (r : BusReply)
    (h : keepsAllBut c (s.setPending rest) u) : keepsAllBut (fun p => c p ∨ busSide p) s (u.pushReply r) := by
  have taken := keepsAllBut_mono (d := fun p => c p ∨ busSide p) (setPending_frame s rest) fun p hp => .inr (.inl hp)
  have done := keepsAllBut_mono (d := fun p => c p ∨ busSide p) h fun p hp => .inl hp
  have given := keepsAllBut_mono (d := fun p => c p ∨ busSide p) (pushReply_frame u r) fun p hp => .inr (.inr hp)
  exact keepsAllBut_trans (keepsAllBut_trans taken done) given

theorem step_write (s : State) (width off : Nat) (d : Lane) (rest : List HostEvent) :
    step (s.setPending (.write width off d :: rest)) = (s.setPending rest).busWrite width off d := rfl

/-- A bus write completes as `post` says, if what it leaves once the transaction is off the list keeps the host's side. -/
theorem writeGives_of_busWrite {s : State} {off : Nat} {d : Lane} {post : State → Prop} (u : List HostEvent → State)
    (write : ∀ rest, (s.setPending rest).busWrite 64 off d = .next ((u rest).pushReply .ok))
    (pending : ∀ rest, (u rest).pending = rest) (replies : ∀ rest, (u rest).replies = s.replies)
    (result : ∀ rest, post ((u rest).pushReply .ok)) : writeGives s off d post := by
  intro rest
  refine ⟨(u rest).pushReply .ok, ?_, ⟨pending rest, ?_⟩, result rest⟩
  · rw [step_write, write]
  · rw [State.pushReply_replies, replies]

/-! ### Writes to the buffer, to MLEN and to FAULTCLR -/

/-- Of a canonical buffer, storing a byte sequence changes the bytes it covers (R13). -/
theorem writeBytes_frame {s : State} (hw : s.BUF.wf) (a : Nat) (bs : List Byte) :
    keepsAllBut (fun p => ∃ k, k < bs.length ∧ p = .byte (a + k)) s (s.setBUF (s.BUF.writeBytes a bs)) := by
  apply keepsAllBut_of_parts
  case byte =>
    intro b
    by_cases hb : a ≤ b ∧ b < a + bs.length
    · exact .inl ⟨b - a, by omega, by rw [Nat.add_sub_cancel' hb.1]⟩
    · exact .inr (by rw [State.setBUF_BUF, Memory.read_writeBytes hw, if_neg hb])
  all_goals simp

/-- The eight bytes of a written word, low byte first (R57). -/
theorem read_writeBytes_le64 {m : Memory} (hw : m.wf) (a : Nat) (d : Lane) {k : Nat} (hk : k < 8) :
    (m.writeBytes a (le64Bytes d)).read (a + k) = d.extractLsb' (8 * k) 8 := by
  rw [Memory.read_writeBytes hw, le64Bytes_length, if_pos (by omega), Nat.add_sub_cancel_left, le64Bytes_getD d hk,
    le64Byte]

theorem writeGives_bufword {s : State} (hw : s.BUF.wf) (d : Lane) {q : Nat} (hq : 8 * q < s.bufCap) :
    writeGives s (0x1000 + 8 * q) d fun t =>
      (∀ k < 8, t.BUF.read (8 * q + k) = d.extractLsb' (8 * k) 8) ∧
      keepsAllBut (fun p => busSide p ∨ ∃ k, k < 8 ∧ p = .byte (8 * q + k)) s t := by
  have frame (rest : List HostEvent) := writeBytes_frame (s := s.setPending rest) hw (8 * q) (le64Bytes d)
  refine writeGives_of_busWrite (fun rest => (s.setPending rest).setBUF (s.BUF.writeBytes (8 * q) (le64Bytes d)))
    (fun _ => State.busWrite_located _ d (locate_bufword _ q hq) rfl) (fun _ => rfl) (fun _ => rfl)
    fun rest => ⟨fun k hk => read_writeBytes_le64 hw (8 * q) d hk, ?_⟩
  exact keepsAllBut_mono (keepsAllBut_answered .ok (frame rest)) fun p hp => hp.symm

theorem writeGives_mlen (s : State) (d : Lane) :
    writeGives s 0x0018 d fun t => t.MLEN = d ∧ keepsAllBut (fun p => p = .mlen ∨ busSide p) s t :=
  writeGives_of_busWrite (fun rest => (s.setPending rest).setMLEN d)
    (fun _ => State.busWrite_located _ d (locate_mlen _) rfl) (fun _ => rfl) (fun _ => rfl)
    fun _ => ⟨rfl, keepsAllBut_answered .ok (setMLEN_frame _ d)⟩

/-- Settles O44. -/
theorem bufferWritesReplaceEightBytes : Obligations.BufferWritesReplaceEightBytes :=
  fun s d => ⟨fun hw _ hq => writeGives_bufword hw d hq, writeGives_mlen s d⟩

/-- A write to FAULTCLR is an update of STATUS, to 0 or to what it was (R30, R205). -/
theorem State.faultclrWrite_eq (s : State) (d : Lane) :
    s.faultclrWrite d = s.setSTATUS (if d.getLsbD 0 = true then 0#64 else s.STATUS) := by
  rw [State.faultclrWrite]
  split
  · rfl
  · rfl

/-- Settles O45. -/
theorem faultclrClearsTheFault : Obligations.FaultclrClearsTheFault := by
  intro s d
  refine writeGives_of_busWrite
    (fun rest => (s.setPending rest).setSTATUS (if d.getLsbD 0 = true then 0#64 else s.STATUS))
    (fun rest => ?_) (fun _ => rfl) (fun _ => rfl)
    fun _ => ⟨rfl, keepsAllBut_answered .ok (setSTATUS_frame _ _)⟩
  rw [State.busWrite_faultclr, State.faultclrWrite_eq, State.setPending_STATUS]

/-! ### Reset -/

theorem step_reset (s : State) (draw : ResetDraw) (rest : List HostEvent) :
    step (s.setPending (.reset draw :: rest)) = .next ((s.setPending rest).resetBy draw) := rfl

/-- The cells of the contents `f` of the addresses below `n`, for a reset to draw. -/
def cellsOf (f : Nat → Byte) (n : Nat) : List Host.Cell := (List.range n).map fun a => (a, f a)

theorem cellsOf_succ (f : Nat → Byte) (n : Nat) : cellsOf f (n + 1) = cellsOf f n ++ [(n, f n)] := by
  simp [cellsOf, List.range_succ]

theorem Memory.ofCells_append (cap : Nat) (cs ds : List Host.Cell) (m : Memory) :
    Memory.ofCells cap (cs ++ ds) m = Memory.ofCells cap ds (Memory.ofCells cap cs m) := by
  induction cs generalizing m with
  | nil => rfl
  | cons c cs ih => exact ih _

/-- Any contents can be stored in the buffer, cell by cell (R34: "a draw at reset"). -/
theorem Memory.read_ofCells_cellsOf (cap : Nat) (f : Nat → Byte) {n a : Nat} (hn : n ≤ cap) (ha : a < n) :
    (Memory.ofCells cap (cellsOf f n) []).read a = f a := by
  induction n with
  | zero => omega
  | succ n ih =>
    have stored : (Memory.ofCells cap (cellsOf f n) []).wf := Memory.ofCells_wf Memory.nil_wf _ _
    rw [cellsOf_succ, Memory.ofCells_append, Memory.ofCells, if_pos (by omega), Memory.ofCells,
      Memory.read_write stored.1]
    split
    · next h => rw [h]
    · next h => exact ih (by omega) (by omega)

/-- Settles O47. -/
theorem resetClearsControlStateAndDrawsTheRest : Obligations.ResetClearsControlStateAndDrawsTheRest := by
  constructor
  · intro s draw rest
    exact ⟨_, step_reset s draw rest, rfl, rfl, rfl, rfl, rfl, rfl⟩
  · intro s S x P DIG f rest
    refine ⟨⟨S, x, P, DIG, cellsOf f s.bufCap⟩, _, step_reset s _ rest, rfl, rfl, rfl, rfl, fun a ha => ?_⟩
    exact Memory.read_ofCells_cellsOf s.bufCap f le_rfl ha

/-- Settles O48: the reset state has nothing pending, and a block at rest keeps its state. -/
theorem resetStateHasTheSpecifiedValues : Obligations.ResetStateHasTheSpecifiedValues :=
  ⟨rfl, rfl, rfl, rfl⟩

end Sys2Proof.Machine

/-! PROOFS. Point addition stays on the curve (R36 d, e). The congruences modulo the field prime are equations in the field
`ZMod p`, where the Fermat power is the inverse; there the third point of the chord or tangent lies on the curve. -/

namespace Sys2Proof.Machine

/-! ### The third point of a line, in any field -/

section Line

variable {F : Type} [Field F] {x1 y1 x2 y2 x3 y3 l : F}

/-- The reflection of the third point of the chord: `x³ + 7 - (l (x - x1) + y1)²` vanishes at `x1` and `x2`, so at the third
root too. -/
theorem chord_third_point (hx : x2 - x1 ≠ 0) (hl : l * (x2 - x1) = y2 - y1) (h1 : y1 * y1 = x1 * x1 * x1 + 7)
    (h2 : y2 * y2 = x2 * x2 * x2 + 7) (hx3 : x3 = l * l - x1 - x2) (hy3 : y3 = l * (x1 - x3) - y1) :
    y3 * y3 = x3 * x3 * x3 + 7 := by
  obtain rfl : y2 = l * (x2 - x1) + y1 := by rw [hl, sub_add_cancel]
  subst hy3 hx3
  apply mul_left_cancel₀ hx
  linear_combination (x2 - (l * l - x1 - x2)) * h1 + ((l * l - x1 - x2) - x1) * h2

/-- The reflection of the third point of the tangent: there `x1` is a double root. -/
theorem tangent_third_point (hl : l * (2 * y1) = 3 * x1 * x1) (h1 : y1 * y1 = x1 * x1 * x1 + 7)
    (hx3 : x3 = l * l - x1 - x1) (hy3 : y3 = l * (x1 - x3) - y1) : y3 * y3 = x3 * x3 * x3 + 7 := by
  subst hy3 hx3
  linear_combination h1 + ((l * l - x1 - x1) - x1) * hl

end Line

/-! ### The rule's congruences as equations in the field -/

section Congruences

variable {p : Nat}

theorem onCurve_iff_field (hp : primeP = p) (x y : XWord) :
    OnCurve x y ↔ (y.toNat : ZMod p) * y.toNat = x.toNat * x.toNat * x.toNat + 7 := by
  rw [OnCurve, hp, ← Int.dvd_iff_emod_eq_zero, ← ZMod.intCast_zmod_eq_zero_iff_dvd]
  push_cast
  exact sub_eq_zero

/-- A stored residue stands for the same element of the field as the integer it is the residue of. -/
theorem cast_of_residue (hp : primeP = p) {u : XWord} {v : Int} (h : (u.toNat : Int) = v % primeP) :
    (u.toNat : ZMod p) = (v : ZMod p) := by
  rw [← Int.cast_natCast, h, hp, ZMod.intCast_mod]

/-- Residues below the prime that differ stay different in the field. -/
theorem cast_ne_cast (hp : primeP = p) {u v : XWord} (hu : (u.toNat : Int) < primeP) (hv : (v.toNat : Int) < primeP)
    (h : u ≠ v) : (u.toNat : ZMod p) ≠ v.toNat := by
  rw [hp] at hu hv
  rw [Ne, ZMod.natCast_eq_natCast_iff]
  intro e
  exact h (BitVec.eq_of_toNat_eq (e.eq_of_lt_of_lt (by omega) (by omega)))

variable [Fact p.Prime]

/-- The Fermat power inverts what is not 0 in the field (R145). -/
theorem cast_fermatInv_mul (hp : primeP = p) {a : Int} (ha : (a : ZMod p) ≠ 0) :
    (fermatInv a : ZMod p) * (a : ZMod p) = 1 := by
  have htwo : 2 ≤ p := (Fact.out : p.Prime).two_le
  rw [fermatInv, hp, Int.toNat_natCast, ZMod.intCast_mod, Int.cast_pow, ZMod.intCast_mod, ← pow_succ,
    show p - 2 + 1 = p - 1 by omega]
  exact ZMod.pow_card_sub_one_eq_one ha

/-- The slope of R161 between different `x` is the chord's. -/
theorem slopeOf_chord (hp : primeP = p) {x1 y1 x2 y2 : Nat} (h : (x2 : ZMod p) - x1 ≠ 0) :
    (slopeOf x1 y1 x2 y2 : ZMod p) * (x2 - x1) = y2 - y1 := by
  have hne : ¬ ((x1 : Int) = x2 ∧ (y1 : Int) = y2) := by
    rintro ⟨hx, -⟩
    exact h (by rw [Int.natCast_inj.1 hx, sub_self])
  have inverse := cast_fermatInv_mul hp (a := (x2 : Int) - x1) (by push_cast; exact h)
  rw [slopeOf, if_neg hne, hp, ZMod.intCast_mod]
  push_cast at inverse ⊢
  rw [mul_assoc, inverse, mul_one]

/-- The slope of R161 between equal points is the tangent's. -/
theorem slopeOf_tangent (hp : primeP = p) {x y : Nat} (h : (2 : ZMod p) * y ≠ 0) :
    (slopeOf x y x y : ZMod p) * (2 * y) = 3 * x * x := by
  have inverse := cast_fermatInv_mul hp (a := 2 * (y : Int)) (by push_cast; exact h)
  rw [slopeOf, if_pos ⟨rfl, rfl⟩, hp, ZMod.intCast_mod]
  push_cast at inverse ⊢
  rw [mul_assoc, inverse, mul_one]

/-- Twice a `y` coordinate other than 0 is not 0: the prime is odd. -/
theorem two_mul_cast_ne_zero (hp : primeP = p) {y : XWord} (hy : (y.toNat : Int) < primeP) (h : y ≠ 0#256) :
    (2 : ZMod p) * y.toNat ≠ 0 := by
  have odd : 2 < primeP := by decide +kernel
  have two : ((2 : Nat) : ZMod p) ≠ 0 := by
    rw [Ne, ZMod.natCast_eq_zero_iff]
    intro dvd
    have := Nat.le_of_dvd (by decide) dvd
    omega
  have zero : ((0#256).toNat : Int) < primeP := by decide +kernel
  exact mul_ne_zero (mod_cast two) (by simpa using cast_ne_cast hp hy zero h)

/-- What R161 computes from two points of the curve that are not opposite is a point of the curve. -/
theorem PointSum.onCurve (hp : primeP = p) {x1 y1 x2 y2 a b : XWord}
    (sum : PointSum (.pt x1 y1) (.pt x2 y2) (.pt a b)) (hx1 : (x1.toNat : Int) < primeP)
    (hx2 : (x2.toNat : Int) < primeP) (hy1 : (y1.toNat : Int) < primeP) (h1 : OnCurve x1 y1) (h2 : OnCurve x2 y2)
    (hne : x1 = x2 → y1 = y2 ∧ y1 ≠ 0#256) : OnCurve a b := by
  obtain ⟨_, _, same, ha, hb⟩ := sum
  obtain ⟨rfl, rfl⟩ := Point.pt.inj same
  have ha := cast_of_residue hp ha
  have hb := cast_of_residue hp hb
  rw [onCurve_iff_field hp] at h1 h2 ⊢
  push_cast at ha hb
  by_cases hx : x1 = x2
  · obtain ⟨rfl, hy⟩ := hne hx
    subst hx
    exact tangent_third_point (slopeOf_tangent hp (two_mul_cast_ne_zero hp hy1 hy)) h1 ha hb
  · have apart : (x2.toNat : ZMod p) - x1.toNat ≠ 0 := sub_ne_zero.2 (cast_ne_cast hp hx2 hx1 (Ne.symm hx))
    exact chord_third_point apart (slopeOf_chord hp apart) h1 h2 ha hb

end Congruences

/-- Settles O25: the coordinates are residues, and the rule's congruences are the line construction in `ZMod p`. -/
theorem pointAdditionStaysOnTheCurve : Obligations.PointAdditionStaysOnTheCurve := by
  intro x1 y1 x2 y2 hx1 hy1 hx2 _ h1 h2 hne
  have sum := padd_spec (.pt x1 y1) (.pt x2 y2)
  obtain ⟨a, b, result, ha, hb⟩ := padd_spec (.pt x1 y1) (.pt x2 y2)
  rw [result] at sum
  have : Fact (Nat.Prime fieldPrime.toNat) := ⟨fieldPrime_prime⟩
  refine ⟨a, b, result, sum.onCurve pInt_eq.symm hx1 hx2 hy1 h1 h2 hne, ?_, ?_⟩
  · rw [ha]
    exact Int.emod_lt_of_pos _ primeP_pos
  · rw [hb]
    exact Int.emod_lt_of_pos _ primeP_pos

end Sys2Proof.Machine

/-! PROOFS. Which transactions the bus refuses (R59): the map leaves out what R53 lists as unmapped, and a location refuses
the direction that R53 does not give it. -/

namespace Sys2Proof.Machine

/-! ### The map against R53's list -/

/-- Every location stands at an aligned offset that R53 does not leave unmapped. -/
theorem Loc.offset_mapped {cap off : Nat} {l : Loc} (hoff : l.offset = off) (h : l.inside cap) :
    off % 8 = 0 ∧ ¬ unmapped cap off := by
  unfold unmapped
  cases l <;> simp only [Loc.offset, Loc.inside] at hoff h <;> omega

/-- A branching map gives nothing when it takes no branch that gives a location. -/
theorem ite_some_eq_none {α : Type} {c : Prop} [Decidable c] {a : α} {b : Option α} :
    (if c then some a else b) = none ↔ ¬ c ∧ b = none := by
  by_cases hc : c
  · simp [hc]
  · simp [hc]

/-- The map leaves out only what R53 leaves unmapped, besides the misaligned offsets. -/
theorem unmapped_of_locate_eq_none {cap off : Nat} (h : locate cap off = none) (aligned : off % 8 = 0) :
    unmapped cap off := by
  by_contra mapped
  rw [unmapped] at mapped
  rw [locate, if_neg (by omega)] at h
  by_cases point : 0x0400 ≤ off ∧ off < 0x0600
  · simp only [if_pos point, locatePoint, ite_some_eq_none] at h
    omega
  · simp only [if_neg point, ite_some_eq_none] at h
    omega

/-- The map and R53's list of unmapped ranges leave out the same offsets. -/
theorem locate_eq_none_iff {cap off : Nat} : locate cap off = none ↔ off % 8 ≠ 0 ∨ unmapped cap off := by
  constructor
  · intro h
    by_cases aligned : off % 8 = 0
    · exact .inr (unmapped_of_locate_eq_none h aligned)
    · exact .inl aligned
  · intro left
    cases h : locate cap off with
    | none => rfl
    | some l =>
      obtain ⟨hoff, inside⟩ := locate_some h
      obtain ⟨aligned, mapped⟩ := Loc.offset_mapped hoff inside
      exact absurd left (not_or.2 ⟨not_not.2 aligned, mapped⟩)

/-- The locations without a value for the host are the write-only ones. -/
theorem State.readLoc_eq_none_iff (s : State) {off : Nat} {l : Loc} (hoff : l.offset = off) :
    s.readLoc l = none ↔ writeOnly off := by
  unfold writeOnly
  cases l <;> simp only [State.readLoc, Loc.offset, reduceCtorEq, false_iff, true_iff] at hoff ⊢ <;> omega

/-- The locations that a write can neither store to nor act on are the read-only ones. -/
theorem State.writeLoc_eq_none_iff (s : State) (d : Lane) {off : Nat} {l : Loc} (hoff : l.offset = off) :
    s.writeLoc d l = none ∧ l ≠ .cmd ∧ l ≠ .faultclr ↔ readOnly off := by
  unfold readOnly
  cases l <;> simp only [State.writeLoc, Loc.offset, reduceCtorEq, ne_eq, not_true_eq_false, not_false_eq_true,
    and_true, and_false, false_iff, true_iff] at hoff ⊢ <;> omega

/-! ### Refused and accepted transactions -/

/-- A 64-bit access is refused where the map has no location or the location's direction is the other one (R59). -/
theorem refusedByBus_read_iff (s : State) (off : Nat) :
    refusedByBus s (.read 64 off) ↔ locate s.bufCap off = none ∨ writeOnly off := by
  rw [refusedByBus, locate_eq_none_iff, or_assoc, ne_self_iff_false, false_or]

theorem refusedByBus_write_iff (s : State) (off : Nat) (d : Lane) :
    refusedByBus s (.write 64 off d) ↔ locate s.bufCap off = none ∨ readOnly off := by
  rw [refusedByBus, locate_eq_none_iff, or_assoc, ne_self_iff_false, false_or]

/-- A read is answered with BusError exactly when R59 lists it. -/
theorem State.busRead_eq_busError_iff (s : State) (width off : Nat) :
    s.busRead width off = .busError ↔ refusedByBus s (.read width off) := by
  by_cases hw : width = 64
  case neg => simp [State.busRead, refusedByBus, hw]
  subst hw
  rw [refusedByBus_read_iff]
  cases hl : locate s.bufCap off with
  | none => simp [State.busRead, hl]
  | some l =>
    obtain ⟨hoff, -⟩ := locate_some hl
    rw [s.busRead_located hl, ← s.readLoc_eq_none_iff hoff]
    cases s.readLoc l <;> simp

/-- A write that R59 lists is answered with BusError and does nothing else. -/
theorem State.busWrite_of_refused (s : State) {width off : Nat} {d : Lane} (h : refusedByBus s (.write width off d)) :
    s.busWrite width off d = .next (s.pushReply .busError) := by
  by_cases hw : width = 64
  case neg => rw [State.busWrite, if_pos hw]
  subst hw
  rw [refusedByBus_write_iff] at h
  cases hl : locate s.bufCap off with
  | none => rw [State.busWrite, if_neg (by decide), hl]
  | some l =>
    obtain ⟨hoff, -⟩ := locate_some hl
    have unwritable : readOnly off := h.resolve_left (by simp [hl])
    obtain ⟨stored, hcmd, hclr⟩ := (s.writeLoc_eq_none_iff d hoff).2 unwritable
    exact s.busWrite_refused d hl hcmd hclr stored

/-- No plain store touches the host's side of the bus. -/
theorem State.writeLoc_pending {s t : State} {d : Lane} {l : Loc} (h : s.writeLoc d l = some t) :
    t.pending = s.pending := by
  obtain rfl | ⟨r, v, rfl⟩ | ⟨j, v, rfl⟩ | ⟨q, -, rfl⟩ := State.writeLoc_cases h <;> rfl

/-- The host's remaining events are no command's to write (R35). -/
theorem CommandEffect.pending {i : Instr} {s t : State} (h : CommandEffect i s t) : t.pending = s.pending :=
  h.frame .pending (by cases i <;> simp [mayWrite, bytesFrom])

/-- Whatever the CMD write of a word does to the block, the host's remaining events stay (R58). -/
theorem State.runWord_pending (s : State) (w : CmdWord) : ∃ t, s.runWord w = .next t ∧ t.pending = s.pending := by
  obtain ⟨-, run⟩ | ⟨-, v, -, run⟩ | ⟨-, i, -, run⟩ := s.runWord_cases w
  · exact ⟨s, run, rfl⟩
  · exact ⟨_, run, rfl⟩
  · obtain ⟨t, ht, effect⟩ := exec_effect i s
    exact ⟨t, run.trans ht, effect.pending⟩

/-- A write that R59 does not list is answered with Ok. -/
theorem State.busWrite_of_accepted (s : State) {width off : Nat} {d : Lane}
    (h : ¬ refusedByBus s (.write width off d)) :
    ∃ t : State, s.busWrite width off d = .next (t.pushReply .ok) ∧ t.pending = s.pending := by
  obtain rfl : width = 64 := by_contra fun hw => h (.inl hw)
  rw [refusedByBus_write_iff, not_or] at h
  obtain ⟨mapped, writable⟩ := h
  obtain ⟨l, hl⟩ := Option.ne_none_iff_exists'.1 mapped
  obtain ⟨hoff, -⟩ := locate_some hl
  by_cases hcmd : l = .cmd
  · subst hcmd hoff
    obtain ⟨t, run, pending⟩ := s.runWord_pending (d.setWidth 32)
    exact ⟨t, by rw [Loc.offset, State.busWrite_cmd, run, withReply_next], pending⟩
  by_cases hclr : l = .faultclr
  · subst hclr hoff
    exact ⟨_, s.busWrite_faultclr d, by rw [State.faultclrWrite_eq, State.setSTATUS_pending]⟩
  cases stored : s.writeLoc d l with
  | none => exact absurd ((s.writeLoc_eq_none_iff d hoff).1 ⟨stored, hcmd, hclr⟩) writable
  | some t => exact ⟨t, s.busWrite_located d hl stored, State.writeLoc_pending stored⟩

/-! ### A refused transaction and a read change nothing (R59, R60) -/

/-- Taking a transaction off the list and answering it is the host's side of the bus only. -/
theorem answer_frame (s : State) (rest : List HostEvent) (r : BusReply) :
    keepsAllBut busSide s ((s.setPending rest).pushReply r) :=
  keepsAllBut_mono (keepsAllBut_answered r (keepsAllBut_refl (fun _ => False) _)) fun _ hp => hp.resolve_left id

/-- Settles O39. -/
theorem busRefusesExactlyTheIllegalAccesses : Obligations.BusRefusesExactlyTheIllegalAccesses := by
  intro s e rest head
  rw [step_of_pending head]
  cases e with
  | read width off =>
    have busError := (s.setPending rest).busRead_eq_busError_iff width off
    refine ⟨fun refused => ⟨_, rfl, ⟨rfl, ?_⟩, answer_frame s rest _⟩, fun accepted => ⟨_, rfl, rfl, ?_⟩⟩
    · rw [State.pushReply_replies, busError.2 refused, State.setPending_replies]
    · rw [State.pushReply_replies]
      exact fun same => accepted (busError.1 (List.head_eq_of_cons_eq same))
  | write width off d =>
    refine ⟨fun refused => ?_, fun accepted => ?_⟩
    · exact ⟨_, (s.setPending rest).busWrite_of_refused refused, ⟨rfl, rfl⟩, answer_frame s rest .busError⟩
    · obtain ⟨t, write, pending⟩ := (s.setPending rest).busWrite_of_accepted accepted
      exact ⟨_, write, pending, by simp⟩
  | reset draw => exact ⟨False.elim, fun _ => ⟨_, rfl, rfl, (List.cons_ne_self _ _).symm⟩⟩

/-- A read after a read: the answer comes from the block alone, which the first one leaves as it was (R60). -/
theorem step_read_again (s : State) (width off : Nat) (rest : List HostEvent) (r : BusReply) :
    step ((s.setPending (.read width off :: rest)).pushReply r) =
      .next (((s.setPending rest).pushReply r).pushReply (s.busRead width off)) := rfl

/-- Settles O41. -/
theorem readsHaveNoSideEffects : Obligations.ReadsHaveNoSideEffects := by
  intro s width off rest
  have first := answer_frame s (.read width off :: rest) (s.busRead width off)
  have second := answer_frame ((s.setPending (.read width off :: rest)).pushReply (s.busRead width off)) rest
    (s.busRead width off)
  exact ⟨_, _, s.busRead width off, step_read s width off _, step_read_again s width off rest _, rfl, rfl, first,
    keepsAllBut_trans first second⟩

end Sys2Proof.Machine

/-! PROOFS. What each location reads as (R53 to R57), and what a write to a word of a register replaces (R55, R56). -/

namespace Sys2Proof.Machine

/-! ### What each location reads as -/

theorem readGives_of_readLoc {s : State} {off : Nat} {l : Loc} {v : Lane} (located : locate s.bufCap off = some l)
    (value : s.readLoc l = some v) : readGives s off v := by
  intro rest
  refine ⟨_, step_read s 64 off rest, ⟨rfl, ?_⟩, answer_frame s rest _⟩
  rw [State.pushReply_replies, s.busRead_located located, value, State.setPending_replies]

/-- BUF_CAP is far below 2^64, so CAP reads as it is. -/
theorem toNat_bufCap (s : State) : (BitVec.ofNat 64 s.bufCap).toNat = 136 * s.nblk := by
  obtain ⟨-, bound⟩ := s.nblk_bounds
  rw [BitVec.toNat_ofNat, State.bufCap, Config.rateBytes]
  omega

/-- Byte `k` of word `j` of DIG. -/
theorem le64Byte_dig (dig : Vector Byte 32) (j : Fin 4) {k : Nat} (hk : k < 8) :
    le64Byte (le64 dig.toList (8 * j.val)) k = dig[Fin.ofNat 32 (8 * j.val + k)] := by
  have bound : 8 * j.val + k < 32 := by omega
  simp [le64Byte_le64 _ _ hk, bound, Nat.mod_eq_of_lt bound]

/-- Byte `k` of a word of the buffer. -/
theorem le64Byte_readBytes (m : Memory) (a : Nat) {k : Nat} (hk : k < 8) :
    le64Byte (le64 (m.readBytes a 8) 0) k = m.read (a + k) := by
  rw [le64Byte_le64 _ _ hk, Nat.zero_add, Memory.readBytes_getD _ _ _ _ hk]

theorem readGives_xword (s : State) (r : XReg) (w : Fin 4) :
    readGives s (0x0200 + 0x20 * r.val + 8 * w.val) (s.x[r].extractLsb' (64 * w.val) 64) :=
  readGives_of_readLoc (locate_xword _ r w) rfl

/-- Settles O40: each location by its place in the map and the value the map gives it. -/
theorem readsReturnTheRegisterMap : Obligations.ReadsReturnTheRegisterMap := by
  intro s
  refine ⟨?status, ?mlen, ?plen, ?cap, ?dig, ?lane, readGives_xword s, ?point, ?inf, ?buffer⟩
  case status => exact readGives_of_readLoc (locate_status _) rfl
  case mlen => exact readGives_of_readLoc (locate_mlen _) rfl
  case plen => exact readGives_of_readLoc (locate_plen _) rfl
  case cap => exact ⟨_, toNat_bufCap s, readGives_of_readLoc (locate_cap _) rfl⟩
  case dig => exact fun j => ⟨_, readGives_of_readLoc (locate_dig _ j) rfl, fun k hk => le64Byte_dig s.DIG j hk⟩
  case lane => exact fun i => readGives_of_readLoc (locate_lane _ i) rfl
  case point =>
    exact fun j w => ⟨readGives_of_readLoc (locate_pxword _ j w) rfl, readGives_of_readLoc (locate_pyword _ j w) rfl⟩
  case inf => exact fun j => readGives_of_readLoc (locate_pinf _ j) rfl
  case buffer =>
    exact fun q hq =>
      ⟨_, readGives_of_readLoc (locate_bufword _ q hq) rfl, fun k hk => le64Byte_readBytes s.BUF (8 * q) hk⟩

/-! ### Writes to the words of a register -/

/-- A word written replaces itself and keeps the other three (R55). -/
theorem extractLsb'_setDword (v : XWord) (d : Lane) (w w' : Fin 4) :
    (setDword v w.val d).extractLsb' (64 * w'.val) 64 = if w' = w then d else v.extractLsb' (64 * w'.val) 64 := by
  simpa only [Fin.ext_iff, getDword] using getDword_setDword v d (w := w.val) w'.isLt

theorem State.setX_self (s : State) (r : XReg) (v : XWord) : (s.setX r v).x[r] = v := Vector.getElem_set_self _

theorem State.setP_self (s : State) (j : PReg) (v : PointReg) : (s.setP j v).P[j] = v := Vector.getElem_set_self _

theorem writeGives_xword (s : State) (r : XReg) (w : Fin 4) (d : Lane) :
    writeGives s (0x0200 + 0x20 * r.val + 8 * w.val) d fun t =>
      (∀ w' : Fin 4, t.x[r].extractLsb' (64 * w'.val) 64 = if w' = w then d else s.x[r].extractLsb' (64 * w'.val) 64) ∧
      keepsAllBut (fun p => p = .x r ∨ busSide p) s t := by
  refine writeGives_of_busWrite (fun rest => (s.setPending rest).setX r (setDword s.x[r] w d))
    (fun _ => State.busWrite_located _ d (locate_xword _ r w) rfl) (fun _ => rfl) (fun _ => rfl)
    fun rest => ⟨fun w' => ?_, keepsAllBut_answered .ok (setX_frame _ r _)⟩
  rw [State.pushReply_x, State.setX_self]
  exact extractLsb'_setDword _ d w w'

/-- Settles O42. -/
theorem registerWordWritesReplaceOneWord : Obligations.RegisterWordWritesReplaceOneWord :=
  fun s r w d => ⟨readGives_xword s r w, writeGives_xword s r w d⟩

/-- A write to a location of `P[j]` that stores `v` there leaves `v` and no other change in the block. -/
theorem writeGives_point {s : State} {off : Nat} {l : Loc} {d : Lane} (j : PReg) (v : PointReg)
    (located : locate s.bufCap off = some l)
    (store : ∀ rest, (s.setPending rest).writeLoc d l = some ((s.setPending rest).setP j v)) :
    writeGives s off d fun t => t.P[j] = v ∧ keepsAllBut (fun p => p = .P j ∨ busSide p) s t :=
  writeGives_of_busWrite (fun rest => (s.setPending rest).setP j v)
    (fun rest => State.busWrite_located _ d located (store rest)) (fun _ => rfl) (fun _ => rfl)
    fun _ => ⟨State.setP_self _ j v, keepsAllBut_answered .ok (setP_frame _ j v)⟩

/-- What a completed write leaves may be said in other words. -/
theorem writeGives_mono {s : State} {off : Nat} {d : Lane} {post post' : State → Prop} (h : writeGives s off d post)
    (imp : ∀ t, post t → post' t) : writeGives s off d post' := by
  intro rest
  obtain ⟨t, ht, done, result⟩ := h rest
  exact ⟨t, ht, done, imp t result⟩

/-- Settles O43: each write stores the register with one of its three fields replaced. -/
theorem pointRegisterFieldsAreIndependent : Obligations.PointRegisterFieldsAreIndependent := by
  intro s j w d
  refine ⟨?x, ?y, ?inf⟩
  case x =>
    have write := writeGives_point j { s.P[j] with x := setDword s.P[j].x w d } (locate_pxword s.bufCap j w) fun _ => rfl
    refine writeGives_mono write fun t ⟨value, frame⟩ => ?_
    rw [value]
    exact ⟨extractLsb'_setDword _ d w, rfl, rfl, frame⟩
  case y =>
    have write := writeGives_point j { s.P[j] with y := setDword s.P[j].y w d } (locate_pyword s.bufCap j w) fun _ => rfl
    refine writeGives_mono write fun t ⟨value, frame⟩ => ?_
    rw [value]
    exact ⟨extractLsb'_setDword _ d w, rfl, rfl, frame⟩
  case inf =>
    have write := writeGives_point j { s.P[j] with inf := d.getLsbD 0 } (locate_pinf s.bufCap j) fun _ => rfl
    refine writeGives_mono write fun t ⟨value, frame⟩ => ?_
    rw [value]
    exact ⟨rfl, rfl, rfl, frame⟩

/-! ### A listing's `x<r> <- v` (R92) -/

/-- The write of word `w` of `v` to word `w` of `x[r]`. -/
def xwordWrite (r : XReg) (v : XWord) (w : Fin 4) : HostEvent :=
  .write 64 (0x0200 + 0x20 * r.val + 8 * w.val) (getDword v w)

/-- A listing writes the four words in rising order. -/
theorem listX_eq (r : XReg) (v : XWord) : listX r v = [0, 1, 2, 3].map (xwordWrite r v) := rfl

/-- A run begins with its first step. -/
theorem run_succ_of_step {M : Host.Core} {s t : M.State} (n : Nat) (h : M.step s = .next t) :
    M.run (n + 1) s = M.run n t := by
  rw [Host.Core.run, h]

/-- After the writes of the words `ws` of `v`, those words of `x[r]` are `v`'s and nothing else has changed. -/
theorem run_xwordWrites (r : XReg) (v : XWord) (rest : List HostEvent) (ws : List (Fin 4)) (s : State) :
    ∃ t : State, Host.Core.run Sys2Proof.core ws.length (s.setPending (ws.map (xwordWrite r v) ++ rest)) = .next t ∧
      (∀ w : Fin 4, getDword t.x[r] w = if w ∈ ws then getDword v w else getDword s.x[r] w) ∧
      t.pending = rest ∧ t.replies = List.replicate ws.length .ok ++ s.replies ∧
      keepsAllBut (fun p => p = .x r ∨ busSide p) s t := by
  induction ws generalizing s with
  | nil =>
    exact ⟨s.setPending rest, rfl, by simp, rfl, rfl,
      keepsAllBut_mono (setPending_frame s rest) fun p hp => .inr (.inl hp)⟩
  | cons w ws ih =>
    obtain ⟨u, hu, ⟨pending, replies⟩, word, frame⟩ :=
      writeGives_xword s r w (getDword v w) (ws.map (xwordWrite r v) ++ rest)
    obtain ⟨t, run, words, pending', replies', frame'⟩ := ih u
    rw [← pending] at run
    refine ⟨t, (run_succ_of_step ws.length hu).trans run, fun w' => ?_, pending', ?_, keepsAllBut_trans frame frame'⟩
    · rw [words w']
      by_cases later : w' ∈ ws
      · simp [later]
      · rw [if_neg later, getDword, word w']
        by_cases now : w' = w
        · simp [now]
        · simp [now, later, getDword]
    · rw [replies', replies, List.length_cons, List.replicate_succ', List.append_assoc]
      rfl

/-- Settles O46: the words 0 to 3 are all the words. -/
theorem fourWritesStoreARegister : Obligations.FourWritesStoreARegister := by
  intro s r v rest
  obtain ⟨t, run, words, pending, replies, frame⟩ := run_xwordWrites r v rest [0, 1, 2, 3] s
  rw [← listX_eq] at run
  refine ⟨t, run, xword_eq_of_dwords fun w hw => ?_, pending, replies, frame⟩
  have all : ∀ w : Fin 4, w ∈ [0, 1, 2, 3] := by decide
  exact (words ⟨w, hw⟩).trans (if_pos (all _))

end Sys2Proof.Machine

/-! PROOFS. The CMD write of a decodable word (R58), and how the host's interface places one (notes/assumptions/6.md). -/

namespace Sys2Proof.Machine

theorem State.runWord_of_decode {s : State} {w : CmdWord} {i : Instr} (ready : s.faulted = false)
    (decoded : decode w = .ok i) : s.runWord w = exec i s := by
  rw [State.runWord, ready, decoded]
  rfl

/-- Settles O35. -/
theorem stepRunsTheDecodedCommand : Obligations.StepRunsTheDecodedCommand := by
  intro s data rest i head ready decoded
  have run : step s = withReply .ok (exec i (s.setPending rest)) := by
    rw [← BitVec.setWidth_eq_extractLsb' (by decide)] at decoded
    rw [step_cmd head, State.runWord_of_decode (s := s.setPending rest) ready decoded]
  exact ⟨run, fun u hu => by rw [run, hu, withReply_next]⟩

/-- The state in which the host's interface places a command: a recorded fault is cleared first. -/
def State.readied (s : State) : State := if s.faulted then s.clearFault else s

theorem State.readied_eq (s : State) : s.readied = s.setSTATUS (if s.faulted then 0 else s.STATUS) := by
  rw [State.readied]
  split
  · rfl
  · rfl

theorem State.readied_faulted (s : State) : s.readied.faulted = false := by
  rw [State.readied]
  split
  case isTrue h => exact s.clearFault_faulted
  case isFalse h => exact Bool.eq_false_of_not_eq_true h

theorem State.withFetchWord_eq (s : State) (w : Nat) : s.withFetchWord 32 w = s.readied.setPending
    (.write 64 0x0000 ((BitVec.ofNat 32 (w % 2 ^ 32)).setWidth 64) :: s.pending) := rfl

theorem decode_of_decodeTableWord {nbits w : Nat} {i : Instr} (h : decodeTableWord nbits w = some i) :
    decode (BitVec.ofNat 32 (w % 2 ^ nbits)) = .ok i := by
  rw [decodeTableWord] at h
  cases hd : decode (BitVec.ofNat 32 (w % 2 ^ nbits)) with
  | ok j => simpa [hd] using h
  | error e => simp [hd] at h

/-- Settles O36. -/
theorem fetchWordRunsItsCommand : Obligations.FetchWordRunsItsCommand := by
  intro s w i _ decoded
  refine ⟨s.readied, ?_, ?_, ?_⟩
  · rw [s.readied_eq]
    exact setSTATUS_frame s _
  · rw [s.readied_eq, State.setSTATUS_STATUS]
  · have word : decode (((BitVec.ofNat 32 (w % 2 ^ 32)).setWidth 64).extractLsb' 0 32) = .ok i := by
      rw [← BitVec.setWidth_eq_extractLsb' (by decide), BitVec.setWidth_setWidth_of_le _ (by decide),
        BitVec.setWidth_eq]
      exact decode_of_decodeTableWord decoded
    have untouched : s.readied.setPending s.pending = s.readied := by rw [s.readied_eq]; rfl
    obtain ⟨run, -⟩ := stepRunsTheDecodedCommand _ _ _ i (congrArg State.pending (s.withFetchWord_eq w))
      s.readied_faulted word
    rw [run]
    exact congrArg (fun u => withReply .ok (exec i u)) untouched

end Sys2Proof.Machine

/-! PROOFS. The two readings of a command word (R82, R85) and the two directions of encoding. A row's mask covers exactly
the bits that its format fixes, so a row accepts a word when the word passes the checks of the row's format. -/

namespace Sys2Proof

/-! ### The decoder as a choice of row (R85, R86) -/

/-- Rows that accept one word have one opcode, and no two rows share an opcode (R85). -/
theorem OpcodeRow.opcode_eq_of_accepts {r r' : OpcodeRow} (hr : r ∈ opcodeTable) (hr' : r' ∈ opcodeTable) {w : CmdWord}
    (h : r.accepts w = true) (h' : r'.accepts w = true) : r.opcode = r'.opcode :=
  (opcode_of_accepts hr h).symm.trans (opcode_of_accepts hr' h')

theorem decode_eq_ok_iff {w : CmdWord} {i : Instr} :
    decode w = .ok i ↔ ∃ r ∈ opcodeTable, r.accepts w = true ∧ r.build w = i := by
  rw [decode]
  cases found : opcodeTable.find? fun r => r.accepts w with
  | none =>
    have rejects := List.find?_eq_none.1 found
    simp only [reduceCtorEq, false_iff]
    rintro ⟨r, hr, accepts, -⟩
    exact rejects r hr accepts
  | some r =>
    have hr := List.mem_of_find?_eq_some found
    have accepts := List.find?_some (p := fun r : OpcodeRow => r.accepts w) found
    constructor
    · intro h
      exact ⟨r, hr, accepts, Except.ok.inj h⟩
    · rintro ⟨r', hr', accepts', rfl⟩
      rw [List.inj_on_of_nodup_map opcodeTable_nodup hr hr' (OpcodeRow.opcode_eq_of_accepts hr hr' accepts accepts')]

/-- Settles O33. -/
theorem atMostOneRowAcceptsAWord : Obligations.AtMostOneRowAcceptsAWord := by
  intro w i j hi hj
  have same := OpcodeRow.opcode_eq_of_accepts (List.getElem_mem i.isLt) (List.getElem_mem j.isLt) hi hj
  have place (k : Fin opcodeTable.length) : k.val < (opcodeTable.map OpcodeRow.opcode).length := by
    rw [List.length_map]
    exact k.isLt
  rw [← List.getElem_map OpcodeRow.opcode (h := place i), ← List.getElem_map OpcodeRow.opcode (h := place j)] at same
  exact Fin.ext (opcodeTable_nodup.getElem_inj_iff.1 same)

/-! ### The mask of a format (R82, R85) -/

/-- The bits that a format fixes, field by field: all bits of an unused field, the upper two of a field that holds 0 to 3. -/
def Format.mask : Format → Fields
  | .N => { zero := 0xFF, d := 0xF, c := 0xF, b := 0xF, a := 0xF, opcode := 0xFF }
  | .I => { zero := 0xFF, d := 0x0, c := 0x0, b := 0x0, a := 0x0, opcode := 0xFF }
  | .M4 => { zero := 0xFF, d := 0x0, c := 0x0, b := 0x0, a := 0x0, opcode := 0xFF }
  | .M3 => { zero := 0xFF, d := 0x0, c := 0xF, b := 0x0, a := 0x0, opcode := 0xFF }
  | .C => { zero := 0xFF, d := 0xF, c := 0xF, b := 0xC, a := 0x0, opcode := 0xFF }
  | .P3 => { zero := 0xFF, d := 0xF, c := 0xC, b := 0xC, a := 0xC, opcode := 0xFF }
  | .P2 => { zero := 0xFF, d := 0xF, c := 0xF, b := 0xC, a := 0xC, opcode := 0xFF }
  | .PS => { zero := 0xFF, d := 0xF, c := 0xC, b := 0x0, a := 0xC, opcode := 0xFF }
  | .P1 => { zero := 0xFF, d := 0xF, c := 0xF, b := 0xF, a := 0xC, opcode := 0xFF }
  | .PR => { zero := 0xFF, d := 0xF, c := 0xF, b := 0xC, a := 0xF, opcode := 0xFF }
  | .XR => { zero := 0xFF, d := 0xF, c := 0xF, b := 0x0, a := 0xF, opcode := 0xFF }

/-- The mask column of the table is the mask of each row's format. -/
theorem opcodeTable_format : ∀ r ∈ opcodeTable, (formatOf r.opcode).map Format.mask = some (Fields.ofWord r.mask) := by
  decide

/-- The match column of the table is the opcode byte and zeros above it. -/
theorem opcodeTable_pattern : ∀ r ∈ opcodeTable,
    Fields.ofWord r.pattern = { zero := 0, d := 0, c := 0, b := 0, a := 0, opcode := r.opcode } := by
  decide

/-- Every opcode with a format has a row. -/
theorem exists_row_of_formatOf : ∀ op : BitVec 8, (formatOf op).isSome = true → ∃ r ∈ opcodeTable, r.opcode = op := by
  decide

/-- A field is 0 to 3 exactly when its upper two bits are 0 (R83). -/
theorem and_upper_eq_zero_iff : ∀ x : BitVec 4, x &&& 0xC = 0 ↔ x.toNat < 4 := by decide

/-- The format checks on the operand fields are one masked comparison for each field. -/
theorem Fields.operands_iff (f : Fields) (fmt : Format) :
    f.unusedZero fmt = true ∧ f.pointsInRange fmt = true ∧ f.constInRange fmt = true ↔
      f.d &&& fmt.mask.d = 0 ∧ f.c &&& fmt.mask.c = 0 ∧ f.b &&& fmt.mask.b = 0 ∧ f.a &&& fmt.mask.a = 0 := by
  have all (x : BitVec 4) : x &&& 0xF = 0 ↔ x = 0 := by rw [show x &&& 0xF = x from BitVec.and_allOnes]
  have none (x : BitVec 4) : x &&& 0 = 0 := BitVec.and_zero
  cases fmt <;>
    simp only [unusedZero, pointsInRange, constInRange, Format.mask, all, none, and_upper_eq_zero_iff,
      Bool.and_eq_true, decide_eq_true_eq, beq_iff_eq] <;> tauto

theorem Fields.check_eq_ok_iff (f : Fields) (fmt : Format) :
    f.check = .ok fmt ↔ f.zero = 0 ∧ formatOf f.opcode = some fmt ∧
      f.unusedZero fmt = true ∧ f.pointsInRange fmt = true ∧ f.constInRange fmt = true := by
  constructor
  · intro passes
    rw [check] at passes
    split at passes
    case isTrue => cases passes
    case isFalse zero =>
      cases format : formatOf f.opcode with
      | none => simp [format] at passes
      | some fmt' =>
        simp only [format] at passes
        split_ifs at passes with unused points const
        obtain rfl := Except.ok.inj passes
        exact ⟨not_not.1 zero, rfl, by simpa using unused, by simpa using points, by simpa using const⟩
  · rintro ⟨zero, format, unused, points, const⟩
    simp [check, zero, format, unused, points, const]

theorem OpcodeRow.accepts_iff_check {r : OpcodeRow} (hr : r ∈ opcodeTable) {fmt : Format}
    (format : formatOf r.opcode = some fmt) (w : CmdWord) :
    r.accepts w = true ↔ (Fields.ofWord w).opcode = r.opcode ∧ (Fields.ofWord w).check = .ok fmt := by
  have mask : Fields.ofWord r.mask = fmt.mask := by
    have h := opcodeTable_format r hr
    rw [format] at h
    exact (Option.some.inj h).symm
  rw [accepts_iff, Fields.check_eq_ok_iff, Fields.operands_iff, mask, opcodeTable_pattern r hr]
  have top : fmt.mask.zero = 0xFF := by cases fmt <;> rfl
  have low : fmt.mask.opcode = 0xFF := by cases fmt <;> rfl
  have all (x : BitVec 8) : x &&& 0xFF = x := BitVec.and_allOnes
  rw [top, low, all, all]
  constructor
  · rintro ⟨zero, d, c, b, a, op⟩
    exact ⟨op, zero, op ▸ format, d, c, b, a⟩
  · rintro ⟨op, zero, -, d, c, b, a⟩
    exact ⟨zero, d, c, b, a, op⟩

theorem wellFormedWord_iff_check (w : CmdWord) :
    WellFormedWord w = true ↔ ∃ fmt, (Fields.ofWord w).check = .ok fmt := by
  rw [WellFormedWord]
  cases (Fields.ofWord w).check <;> simp

theorem wellFormedWord_iff_accepted (w : CmdWord) :
    WellFormedWord w = true ↔ ∃ r ∈ opcodeTable, r.accepts w = true := by
  rw [wellFormedWord_iff_check]
  constructor
  · rintro ⟨fmt, passes⟩
    obtain ⟨-, format, -⟩ := (Fields.check_eq_ok_iff _ _).1 passes
    obtain ⟨r, hr, op⟩ := exists_row_of_formatOf _ (Option.isSome_of_eq_some format)
    exact ⟨r, hr, (OpcodeRow.accepts_iff_check hr (op ▸ format) w).2 ⟨op.symm, passes⟩⟩
  · rintro ⟨r, hr, accepts⟩
    obtain ⟨fmt, format, -⟩ := Option.map_eq_some_iff.1 (opcodeTable_format r hr)
    exact ⟨fmt, ((OpcodeRow.accepts_iff_check hr format w).1 accepts).2⟩

theorem wellFormedWord_iff_decodes (w : CmdWord) : WellFormedWord w = true ↔ ∃ i, decode w = .ok i := by
  rw [wellFormedWord_iff_accepted]
  constructor
  · rintro ⟨r, hr, accepts⟩
    exact ⟨r.build w, decode_eq_ok_iff.2 ⟨r, hr, accepts, rfl⟩⟩
  · rintro ⟨i, decoded⟩
    obtain ⟨r, hr, accepts, -⟩ := decode_eq_ok_iff.1 decoded
    exact ⟨r, hr, accepts⟩

theorem decode_of_not_wellFormedWord {w : CmdWord} (h : WellFormedWord w = false) :
    decode w = .error (.illegalCommand w) := by
  cases decoded : decode w with
  | ok i => exact absurd ((wellFormedWord_iff_decodes w).2 ⟨i, decoded⟩) (by simp [h])
  | error e =>
    cases e with
    | illegalCommand v => rw [Machine.decode_error decoded]

/-- Settles O32. -/
theorem legalWordsAreTheWellFormedOnes : Obligations.LegalWordsAreTheWellFormedOnes :=
  fun w => ⟨(wellFormedWord_iff_decodes w).1, decode_of_not_wellFormedWord⟩

/-! ### Operands and their fields (R83, R84) -/

theorem xregAt_eq_iff {w : CmdWord} {lo : Nat} {r : XReg} : xregAt w lo = r ↔ w.extractLsb' lo 4 = xfield r := by
  rw [← BitVec.toNat_inj, xfield_toNat, Fin.ext_iff, xregAt]

/-- The two variable bits of a field that holds 0 to 3 are its value (R83, R85). -/
theorem toNat_lower_bits {w : CmdWord} {lo : Nat} (range : (w.extractLsb' lo 4).toNat < 4) :
    (w.extractLsb' lo 2).toNat = (w.extractLsb' lo 4).toNat := by
  simp only [BitVec.extractLsb'_toNat] at range ⊢
  omega

theorem pregAt_eq_iff {w : CmdWord} {lo : Nat} (range : (w.extractLsb' lo 4).toNat < 4) {j : PReg} :
    pregAt w lo = j ↔ w.extractLsb' lo 4 = pfield j := by
  rw [← BitVec.toNat_inj, pfield_toNat, ← toNat_lower_bits range, Fin.ext_iff, pregAt]

theorem constAt_eq_iff {w : CmdWord} (range : (w.extractLsb' 12 4).toNat < 4) {c : CurveConst} :
    constAt w = c ↔ w.extractLsb' 12 4 = c.field := by
  rw [constAt, toNat_lower_bits range]
  generalize w.extractLsb' 12 4 = x at range
  revert x
  cases c <;> decide

theorem CurveConst.field_lt (c : CurveConst) : c.field.toNat < 4 := by cases c <;> decide

theorem xfield_xregAt (w : CmdWord) (lo : Nat) : xfield (xregAt w lo) = w.extractLsb' lo 4 := (xregAt_eq_iff.1 rfl).symm

theorem pfield_pregAt {w : CmdWord} {lo : Nat} (range : (w.extractLsb' lo 4).toNat < 4) :
    pfield (pregAt w lo) = w.extractLsb' lo 4 :=
  ((pregAt_eq_iff range).1 rfl).symm

theorem field_constAt {w : CmdWord} (range : (w.extractLsb' 12 4).toNat < 4) :
    (constAt w).field = w.extractLsb' 12 4 :=
  ((constAt_eq_iff range).1 rfl).symm

section PackedFields

variable (op : BitVec 8) (a b c d : BitVec 4)

theorem opcode_packFields : (Fields.ofWord (packFields op a b c d)).opcode = op := by rw [ofWord_packFields]

@[simp] theorem extractLsb'_packFields_a : (packFields op a b c d).extractLsb' 8 4 = a :=
  congrArg Fields.a (ofWord_packFields op a b c d)

@[simp] theorem extractLsb'_packFields_b : (packFields op a b c d).extractLsb' 12 4 = b :=
  congrArg Fields.b (ofWord_packFields op a b c d)

@[simp] theorem extractLsb'_packFields_c : (packFields op a b c d).extractLsb' 16 4 = c :=
  congrArg Fields.c (ofWord_packFields op a b c d)

@[simp] theorem extractLsb'_packFields_d : (packFields op a b c d).extractLsb' 20 4 = d :=
  congrArg Fields.d (ofWord_packFields op a b c d)

end PackedFields

/-! ### Decoding an encoded instruction -/

/-- The encoder writes well-formed words only. -/
theorem encode_wellFormed (i : Instr) : WellFormedWord (encode i) = true := by
  cases i with
  | kinit => exact Laws.EncodesLegally.kinit
  | kf => exact Laws.EncodesLegally.kf
  | kpad => exact Laws.EncodesLegally.kpad
  | kabsorb imm16 => exact Laws.EncodesLegally.kabsorb imm16
  | ksqueeze => exact Laws.EncodesLegally.ksqueeze
  | khash => exact Laws.EncodesLegally.khash
  | modmul rd rs1 rs2 rm => exact Laws.EncodesLegally.modmul rd rs1 rs2 rm
  | modpow rd rs1 rs2 rm => exact Laws.EncodesLegally.modpow rd rs1 rs2 rm
  | modinv rd rs1 rm => exact Laws.EncodesLegally.modinv rd rs1 rm
  | ldc rd c => exact Laws.EncodesLegally.ldc rd c
  | padd pd pa pb => exact Laws.EncodesLegally.padd pd pa pb
  | pdbl pd pa => exact Laws.EncodesLegally.pdbl pd pa
  | smul pd rk pa => exact Laws.EncodesLegally.smul pd rk pa
  | ldg pd => exact Laws.EncodesLegally.ldg pd
  | pser pa => exact Laws.EncodesLegally.pser pa
  | k2addr rk => exact Laws.EncodesLegally.k2addr rk

/-- A well-formed word is read by the row of its opcode. -/
theorem decode_eq_build {w : CmdWord} (legal : WellFormedWord w = true) {r : OpcodeRow} (hr : r ∈ opcodeTable)
    (op : (Fields.ofWord w).opcode = r.opcode) : decode w = .ok (r.build w) := by
  obtain ⟨r', hr', accepts⟩ := (wellFormedWord_iff_accepted w).1 legal
  have same := (OpcodeRow.opcode_of_accepts hr' accepts).symm.trans op
  obtain rfl := List.inj_on_of_nodup_map opcodeTable_nodup hr' hr same
  exact decode_eq_ok_iff.2 ⟨r', hr', accepts, rfl⟩

/-- An encoded instruction is read back when the row of its opcode builds it from its word. -/
theorem decode_encode_of_row {i : Instr} {r : OpcodeRow} (n : Nat) (row : opcodeTable[n]? = some r)
    (op : (Fields.ofWord (encode i)).opcode = r.opcode) (reads : r.build (encode i) = i) :
    decode (encode i) = .ok i := by
  rw [decode_eq_build (encode_wellFormed i) (List.mem_of_getElem? row) op, reads]

/-- The 16-bit operand of KABSORB, read from its word (R82 format I). -/
theorem extractLsb'_encode_kabsorb (imm16 : BitVec 16) : (encode (.kabsorb imm16)).extractLsb' 8 16 = imm16 := by
  have := imm16.isLt
  rw [← BitVec.toNat_inj, BitVec.extractLsb'_toNat, encode_kabsorb_toNat, Nat.shiftRight_eq_div_pow]
  omega

/-- Row by row: each operand's field is read from where the encoder packs it. -/
theorem decode_encode (i : Instr) : decode (encode i) = .ok i := by
  cases i with
  | kinit => exact decode_encode_of_row 0 rfl (opcode_packFields ..) rfl
  | kf => exact decode_encode_of_row 1 rfl (opcode_packFields ..) rfl
  | kpad => exact decode_encode_of_row 2 rfl (opcode_packFields ..) rfl
  | kabsorb imm16 =>
    exact decode_encode_of_row 3 rfl (ofWord_kabsorb imm16).2 (congrArg Instr.kabsorb (extractLsb'_encode_kabsorb imm16))
  | ksqueeze => exact decode_encode_of_row 4 rfl (opcode_packFields ..) rfl
  | khash => exact decode_encode_of_row 5 rfl (opcode_packFields ..) rfl
  | modmul rd rs1 rs2 rm =>
    exact decode_encode_of_row 6 rfl (opcode_packFields ..) (by simp [encode, xregAt_eq_iff])
  | modpow rd rs1 rs2 rm =>
    exact decode_encode_of_row 7 rfl (opcode_packFields ..) (by simp [encode, xregAt_eq_iff])
  | modinv rd rs1 rm => exact decode_encode_of_row 8 rfl (opcode_packFields ..) (by simp [encode, xregAt_eq_iff])
  | ldc rd c =>
    exact decode_encode_of_row 9 rfl (opcode_packFields ..)
      (by simp [encode, xregAt_eq_iff, constAt_eq_iff, CurveConst.field_lt])
  | padd pd pa pb => exact decode_encode_of_row 10 rfl (opcode_packFields ..) (by simp [encode, pregAt_eq_iff])
  | pdbl pd pa => exact decode_encode_of_row 11 rfl (opcode_packFields ..) (by simp [encode, pregAt_eq_iff])
  | smul pd rk pa =>
    exact decode_encode_of_row 12 rfl (opcode_packFields ..) (by simp [encode, pregAt_eq_iff, xregAt_eq_iff])
  | ldg pd => exact decode_encode_of_row 13 rfl (opcode_packFields ..) (by simp [encode, pregAt_eq_iff])
  | pser pa => exact decode_encode_of_row 14 rfl (opcode_packFields ..) (by simp [encode, pregAt_eq_iff])
  | k2addr rk => exact decode_encode_of_row 15 rfl (opcode_packFields ..) (by simp [encode, xregAt_eq_iff])

/-- Settles O30. -/
theorem decodeOfEncodeIsTheInstruction : Obligations.DecodeOfEncodeIsTheInstruction := fun i _ => decode_encode i

/-- Settles O34. -/
theorem printedWordsDecode : Obligations.PrintedWordsDecode :=
  ⟨decode_encode .kf, decode_encode (.kabsorb 1), decode_encode (.modmul 3 1 2 15), decode_encode (.modinv 2 1 15),
    decode_encode (.ldc 2 .gy), decode_encode (.padd 2 1 0), decode_encode (.smul 3 7 2), decode_encode (.pser 1),
    decode_encode (.k2addr 5), decode_of_not_wellFormedWord (by decide)⟩

/-! ### Encoding a decoded instruction -/

/-- A word whose top byte is 0 is packed from its fields (R81). -/
theorem eq_packFields {w : CmdWord} (zero : (Fields.ofWord w).zero = 0) : w = packFields (Fields.ofWord w).opcode
    (Fields.ofWord w).a (Fields.ofWord w).b (Fields.ofWord w).c (Fields.ofWord w).d := by
  have h := Fields.word_ofWord w
  rw [Fields.word, zero] at h
  exact h.symm

/-- The word of KABSORB from any word of its opcode (R82 format I). -/
theorem encode_kabsorb_extractLsb' (a b c d : BitVec 4) :
    encode (.kabsorb ((packFields 0x04 a b c d).extractLsb' 8 16)) = packFields 0x04 a b c d := by
  have := a.isLt; have := b.isLt; have := c.isLt; have := d.isLt
  rw [← BitVec.toNat_inj, encode_kabsorb_toNat, BitVec.extractLsb'_toNat, packFields_toNat, Nat.shiftRight_eq_div_pow]
  have op : BitVec.toNat (0x04 : BitVec 8) = 4 := rfl
  omega

/-- The row's instruction encodes to the word it was read from, for every word that passes the checks of the row. -/
def OpcodeRow.EncodesBack (r : OpcodeRow) : Prop :=
  ∀ (a b c d : BitVec 4) (fmt : Format),
    Fields.check { zero := 0, d := d, c := c, b := b, a := a, opcode := r.opcode } = .ok fmt →
    encode (r.build (packFields r.opcode a b c d)) = packFields r.opcode a b c d

/-- It is enough to look at the operand checks of the row's own format. -/
theorem OpcodeRow.EncodesBack.of_format {r : OpcodeRow} (op : BitVec 8) (fmt : Format) (key : r.opcode = op)
    (format : formatOf op = some fmt)
    (h : ∀ a b c d : BitVec 4,
      Fields.unusedZero { zero := 0, d := d, c := c, b := b, a := a, opcode := op } fmt = true →
      Fields.pointsInRange { zero := 0, d := d, c := c, b := b, a := a, opcode := op } fmt = true →
      Fields.constInRange { zero := 0, d := d, c := c, b := b, a := a, opcode := op } fmt = true →
      encode (r.build (packFields op a b c d)) = packFields op a b c d) : r.EncodesBack := by
  subst key
  intro a b c d fmt' passes
  obtain ⟨-, format', unused, points, const⟩ := (Fields.check_eq_ok_iff _ _).1 passes
  obtain rfl : fmt = fmt' := Option.some.inj (format.symm.trans format')
  exact h a b c d unused points const

/-- A command without operands has one word (R82 format N). -/
theorem OpcodeRow.EncodesBack.of_format_N {r : OpcodeRow} (format : formatOf r.opcode = some .N)
    (word : encode (r.build (packFields r.opcode 0 0 0 0)) = packFields r.opcode 0 0 0 0) : r.EncodesBack := by
  refine of_format r.opcode .N rfl format fun a b c d unused _ _ => ?_
  obtain ⟨⟨⟨rfl, rfl⟩, rfl⟩, rfl⟩ : ((a = 0 ∧ b = 0) ∧ c = 0) ∧ d = 0 := by simpa [Fields.unusedZero] using unused
  exact word

/-- Row by row: the encoder packs each operand where the row reads it, and a field that the row does not read is 0. -/
theorem opcodeTable_encodesBack : ∀ r ∈ opcodeTable, r.EncodesBack := by
  simp only [opcodeTable, List.forall_mem_cons]
  refine ⟨?kinit, ?kf, ?kpad, ?kabsorb, ?ksqueeze, ?khash, ?modmul, ?modpow, ?modinv, ?ldc, ?padd, ?pdbl, ?smul, ?ldg,
    ?pser, ?k2addr, List.forall_mem_nil _⟩
  case kinit | kf | kpad | ksqueeze | khash => exact .of_format_N rfl rfl
  case kabsorb => exact .of_format 0x04 .I rfl rfl fun a b c d _ _ _ => encode_kabsorb_extractLsb' a b c d
  case modmul => exact .of_format 0x10 .M4 rfl rfl fun a b c d _ _ _ => by simp [encode, xfield_xregAt]
  case modpow => exact .of_format 0x11 .M4 rfl rfl fun a b c d _ _ _ => by simp [encode, xfield_xregAt]
  case modinv =>
    refine .of_format 0x12 .M3 rfl rfl fun a b c d unused _ _ => ?_
    simp_all [Fields.unusedZero, encode, xfield_xregAt]
  case ldc =>
    refine .of_format 0x13 .C rfl rfl fun a b c d unused _ const => ?_
    simp_all [Fields.unusedZero, Fields.constInRange, encode, xfield_xregAt, field_constAt]
  case padd =>
    refine .of_format 0x20 .P3 rfl rfl fun a b c d unused points _ => ?_
    simp_all [Fields.unusedZero, Fields.pointsInRange, encode, pfield_pregAt]
  case pdbl =>
    refine .of_format 0x21 .P2 rfl rfl fun a b c d unused points _ => ?_
    simp_all [Fields.unusedZero, Fields.pointsInRange, encode, pfield_pregAt]
  case smul =>
    refine .of_format 0x22 .PS rfl rfl fun a b c d unused points _ => ?_
    simp_all [Fields.unusedZero, Fields.pointsInRange, encode, pfield_pregAt, xfield_xregAt]
  case ldg =>
    refine .of_format 0x23 .P1 rfl rfl fun a b c d unused points _ => ?_
    simp_all [Fields.unusedZero, Fields.pointsInRange, encode, pfield_pregAt]
  case pser =>
    refine .of_format 0x24 .PR rfl rfl fun a b c d unused points _ => ?_
    simp_all [Fields.unusedZero, Fields.pointsInRange, encode, pfield_pregAt]
  case k2addr =>
    refine .of_format 0x30 .XR rfl rfl fun a b c d unused _ _ => ?_
    simp_all [Fields.unusedZero, encode, xfield_xregAt]

theorem encode_build {r : OpcodeRow} (hr : r ∈ opcodeTable) {w : CmdWord} (accepts : r.accepts w = true) :
    encode (r.build w) = w := by
  obtain ⟨fmt, format, -⟩ := Option.map_eq_some_iff.1 (opcodeTable_format r hr)
  obtain ⟨op, passes⟩ := (OpcodeRow.accepts_iff_check hr format w).1 accepts
  obtain ⟨zero, -⟩ := (Fields.check_eq_ok_iff _ _).1 passes
  obtain ⟨a, b, c, d, rfl⟩ : ∃ a b c d, w = packFields r.opcode a b c d := ⟨_, _, _, _, op ▸ eq_packFields zero⟩
  rw [ofWord_packFields] at passes
  exact opcodeTable_encodesBack r hr a b c d fmt passes

/-- Settles O31. -/
theorem encodeOfDecodeIsTheWord : Obligations.EncodeOfDecodeIsTheWord := by
  intro w i decoded
  obtain ⟨r, hr, accepts, rfl⟩ := decode_eq_ok_iff.1 decoded
  exact encode_build hr accepts

end Sys2Proof

/-! PROOFS. The CMD write of an illegal word (R86, R201, R203). -/

namespace Sys2Proof.Machine

theorem State.runWord_of_not_wellFormed {s : State} {w : CmdWord} (ready : s.faulted = false)
    (illegal : WellFormedWord w = false) : s.runWord w = .next (s.raise .illegalCommand w) := by
  rw [State.runWord, ready, decode_of_not_wellFormedWord illegal]
  rfl

/-- Settles O38: the word recorded is the low half of the data written. -/
theorem illegalWordsFault : Obligations.IllegalWordsFault := by
  intro s data ready illegal
  rw [← BitVec.setWidth_eq_extractLsb' (by decide)] at illegal
  have records (rest : List HostEvent) := raise_records (s.setPending rest) .illegalCommand (data.setWidth 32)
  refine writeGives_of_busWrite (fun rest => (s.setPending rest).raise .illegalCommand (data.setWidth 32))
    (fun rest => ?_) (fun _ => rfl) (fun _ => rfl) fun rest => ⟨?_, keepsAllBut_answered .ok (records rest).2⟩
  · rw [State.busWrite_cmd, State.runWord_of_not_wellFormed (s := s.setPending rest) ready illegal, withReply_next]
  · rw [State.pushReply_STATUS, (records rest).1, BitVec.toNat_setWidth]
    rfl

end Sys2Proof.Machine

/-! PROOFS. The Keccak-f[1600] permutation (R101 to R110). The arrays of the rule's equations are the model's intermediate
lanes, round by round; each equation is then what one step of a round leaves in one lane. -/

namespace Sys2Proof.Machine

/-- Settles O1: KINIT stores the vector of 25 zero lanes, and storing lanes has the frame of `setS`. -/
theorem kinitZeroesEveryLane : Obligations.KinitZeroesEveryLane :=
  ⟨rfl, fun s => ⟨s.setS zeroLanes, rfl, fun i => Vector.getElem_replicate i.isLt, setS_frame s zeroLanes⟩⟩

/-! ### The printed tables -/

/-- The round constants, each by its 1 bits (R101). -/
theorem rc_toNat : RC.toList.map BitVec.toNat = roundConstantBits.map numberOfBits := by decide

/-- The positions by the formula of R103. -/
theorem pi_val (i : Fin 25) : PI[i].val = i.val / 5 + 5 * ((2 * (i.val % 5) + 3 * (i.val / 5)) % 5) := by
  revert i
  decide

/-! ### One round, lane by lane -/

/-- The column parities (R104), with the lanes of a column by their positions in the state. -/
theorem columnParity_getElem (A : Lanes) (x : Fin 5) :
    (columnParity A)[x] = A[Fin.ofNat 25 x.val] ^^^ A[Fin.ofNat 25 (x.val + 5)] ^^^ A[Fin.ofNat 25 (x.val + 10)] ^^^
      A[Fin.ofNat 25 (x.val + 15)] ^^^ A[Fin.ofNat 25 (x.val + 20)] := by
  have position {k : Nat} (hk : k ≤ 20) : (x.val + k) % 25 = x.val + k := Nat.mod_eq_of_lt (by omega)
  have first : x.val % 25 = x.val := position (Nat.zero_le 20)
  simp only [columnParity, Fin.getElem_fin, Vector.getElem_ofFn, Fin.val_ofNat, first, position (k := 5) (by decide),
    position (k := 10) (by decide), position (k := 15) (by decide), position (k := 20) le_rfl]

/-- What θ adds to the lanes of a column (R104). -/
theorem thetaD_getElem (C : Vector Lane 5) (x : Fin 5) :
    (thetaD C)[x] = C[Fin.ofNat 5 (x.val + 4)] ^^^ rotl64 C[Fin.ofNat 5 (x.val + 1)] 1 := by
  simp only [thetaD, Fin.getElem_fin, Vector.getElem_ofFn, Fin.val_ofNat]

/-- χ and then ι, on the lanes that ρ and π have moved (R106, R107, R108). -/
theorem keccakRound_getElem (A : Lanes) (r : Fin 24) (i : Fin 25) :
    (keccakRound A r)[i] =
      ((rhopi (theta A))[i] ^^^ ((~~~ (rhopi (theta A))[Fin.ofNat 25 (5 * (i.val / 5) + (i.val % 5 + 1) % 5)]) &&&
        (rhopi (theta A))[Fin.ofNat 25 (5 * (i.val / 5) + (i.val % 5 + 2) % 5)])) ^^^ (if i = 0 then RC[r] else 0#64) := by
  rw [keccakRound, iota_getElem, chi_getElem]

/-- The lanes after round `r` come from those before it by that round. -/
theorem roundsAfter_succ_fin (A : Lanes) (r : Fin 24) :
    roundsAfter A (r.val + 1) = keccakRound (roundsAfter A r.val) r := by
  rw [roundsAfter_succ, Fin.ofNat_val_eq_self]

/-- The lanes that KF leaves, after all twenty-four rounds (R110). -/
theorem execKf_eq (s : State) : execKf s = .next (s.setS (roundsAfter s.S 24)) := by
  rw [execKf, keccakF_eq_roundsAfter]

/-- Settles O3: `A r` holds the lanes before round `r`, and `C`, `D`, `B`, `T` the column parities, what θ adds, and the
lanes after θ and after ρ and π of that round. -/
theorem kfRunsTwentyFourRounds : Obligations.KfRunsTwentyFourRounds := by
  refine ⟨rc_toNat, rfl, fun i => ⟨pi_val i, piinv_pi i⟩, rfl, fun s => ?_⟩
  refine ⟨fun r i => (roundsAfter s.S r)[i], fun r i => (theta (roundsAfter s.S r))[i],
    fun r i => (rhopi (theta (roundsAfter s.S r)))[i], fun r x => (columnParity (roundsAfter s.S r))[x],
    fun r x => (thetaD (columnParity (roundsAfter s.S r)))[x], s.setS (roundsAfter s.S 24),
    ?start, ?parity, ?added, ?theta, ?scatter, ?round, execKf_eq s, fun _ => rfl, setS_frame s _⟩
  case start => exact fun _ => rfl
  case parity => exact fun r _ x => columnParity_getElem _ x
  case added => exact fun r _ x => thetaD_getElem _ x
  case theta => exact fun r _ i => theta_getElem _ i
  case scatter => exact fun r _ i => rhopi_getElem_pi _ i
  case round =>
    intro r i
    beta_reduce
    rw [roundsAfter_succ_fin, keccakRound_getElem]

end Sys2Proof.Machine

/-! PROOFS. The sponge (R120 to R128): the padded bytes, and what KPAD, KABSORB, KSQUEEZE and KHASH leave. The buffer
after KPAD holds the padded message, so absorbing the blocks of the buffer is absorbing the blocks of `pad`. -/

namespace Sys2Proof.Machine

/-! ### Padding a byte sequence (R120) -/

/-- A message with its first padding byte and zeros after it. -/
theorem getD_append_padFirst_zeros (M : List Byte) (n k : Nat) :
    (M ++ [Config.padFirst] ++ List.replicate n 0#8).getD k 0 =
      if k < M.length then M.getD k 0 else if k = M.length then 0x01#8 else 0#8 := by
  rw [List.append_assoc]
  by_cases below : k < M.length
  · rw [if_pos below, List.getD_append _ _ _ _ below]
  · rw [if_neg below, List.getD_append_right _ _ _ _ (Nat.le_of_not_lt below)]
    cases h : k - M.length with
    | zero => rw [if_pos (by omega)]; rfl
    | succ j => rw [if_neg (by omega)]; simp

/-- Bits ORed into the byte at one place. -/
theorem getD_set_or (B : List Byte) (last : Nat) (v : Byte) {k : Nat} (hk : k < B.length) :
    (B.set last (B.getD last 0 ||| v)).getD k 0 = B.getD k 0 ||| if k = last then v else 0#8 := by
  by_cases h : k = last
  · subst h
    simp [hk]
  · simp [h, Ne.symm h]

/-- The bytes of a padded message (R120): the message, then the padding, whose last byte takes 0x80 as well. -/
theorem pad_getD (M : List Byte) {k : Nat} (hk : k < (pad M).length) :
    (pad M).getD k 0 =
      if k < M.length then M.getD k 0
      else (if k = M.length then 0x01#8 else 0#8) ||| (if k = (pad M).length - 1 then 0x80#8 else 0#8) := by
  rw [pad_length] at hk ⊢
  rw [pad, getD_set_or _ _ _ (by simp [Config.rateBytes]; omega), getD_append_padFirst_zeros]
  by_cases below : k < M.length
  · rw [if_pos below, if_pos below, if_neg (by simp only [Config.rateBytes]; omega), BitVec.or_zero]
  · rw [if_neg below, if_neg below]

/-- Settles O4: the two lemmas about `pad`. -/
theorem padAppendsTheMultiRatePadding : Obligations.PadAppendsTheMultiRatePadding :=
  fun M => ⟨pad_length M, fun _ hk => pad_getD M hk⟩

/-! ### Reading byte sequences from the buffer -/

/-- The first bytes of a memory are a given sequence when each of them is. -/
theorem Memory.readBytes_eq_of_getD {m : Memory} {M : List Byte} (h : ∀ k < M.length, m.read k = M.getD k 0) :
    m.readBytes 0 M.length = M := by
  refine List.ext_getElem (by simp) fun k _ hk => ?_
  have byte := h k hk
  simpa [Memory.readBytes, hk] using byte

/-- Block `k` of the first `n` bytes of a memory is the block itself (R123, R126). -/
theorem Memory.blockOf_readBytes (m : Memory) {n k : Nat} (h : 136 * k + 136 ≤ n) :
    blockOf (m.readBytes 0 n) k = m.readBytes (136 * k) 136 := by
  refine List.ext_getElem (by simp [blockOf, Config.rateBytes]; omega) fun i _ hi => ?_
  simp [blockOf, Memory.readBytes]

/-! ### KPAD (R122) -/

/-- The check of KPAD and KHASH (R122, R127) fails exactly when MLEN is at or above the capacity. -/
theorem State.bufCap_lt_paddedLen (s : State) : s.bufCap < s.paddedLen ↔ s.bufCap ≤ s.MLEN.toNat := by
  rw [← Nat.not_le, s.paddedLen_le_bufCap, Nat.not_lt]

theorem execKpad_of_fits {s : State} (fits : s.MLEN.toNat < s.bufCap) : execKpad s = .next s.doKpad :=
  if_neg (Nat.not_lt.2 (s.paddedLen_le_bufCap.2 fits))

theorem execKpad_of_overflow {s : State} (overflow : s.bufCap ≤ s.MLEN.toNat) :
    execKpad s = .next (s.raise .bufferOverflow (encode .kpad)) :=
  if_pos (s.bufCap_lt_paddedLen.2 overflow)

/-- A padded length that fits the buffer is far below 2^64, so PLEN holds it as it is. -/
theorem State.toNat_ofNat_paddedLen {s : State} (fits : s.MLEN.toNat < s.bufCap) :
    (BitVec.ofNat 64 s.paddedLen).toNat = s.paddedLen := by
  have padded := s.paddedLen_le_bufCap.2 fits
  have cap : s.bufCap = 136 * s.nblk := rfl
  obtain ⟨-, bound⟩ := s.nblk_bounds
  rw [BitVec.toNat_ofNat, Nat.mod_eq_of_lt (by omega)]

/-- The padded message stands at the front of the buffer after KPAD (R122). -/
theorem State.doKpad_readBytes {s : State} (hw : s.BUF.wf) :
    s.doKpad.BUF.readBytes 0 s.paddedLen = pad (s.BUF.readBytes 0 s.MLEN.toNat) := by
  have length : (pad (s.BUF.readBytes 0 s.MLEN.toNat)).length = s.paddedLen := by
    rw [pad_length, Memory.readBytes_length]
    rfl
  rw [← length]
  refine Memory.readBytes_eq_of_getD fun k hk => ?_
  rw [s.doKpad_read hw, pad_getD _ hk, length, Memory.readBytes_length]
  rw [length] at hk
  by_cases below : k < s.MLEN.toNat
  · rw [if_pos (.inl below), if_pos below, Memory.readBytes_getD _ _ _ _ below, Nat.zero_add]
  · rw [if_neg (by omega), if_neg below]

/-- KPAD changes the padding bytes and PLEN only (R122). -/
theorem State.doKpad_frame_of_wf {s : State} (hw : s.BUF.wf) :
    keepsAllBut (fun p => p = .plen ∨ ∃ a, p = .byte a ∧ s.MLEN.toNat ≤ a ∧ a < s.paddedLen) s s.doKpad := by
  refine keepsAllBut_mono (doKpad_frame s) fun p changed => ?_
  obtain ⟨a, rfl, range⟩ | rfl := changed
  · exact .inr ⟨a, rfl, range hw⟩
  · exact .inl rfl

/-- The padding depends on MLEN alone, which KPAD keeps, so a second KPAD writes the same bytes (R122). -/
theorem State.doKpad_doKpad {s : State} (hw : s.BUF.wf) : s.doKpad.doKpad = s.doKpad := by
  have buffer : s.doKpad.doKpad.BUF = s.doKpad.BUF := by
    have hw1 := s.doKpad_wf hw
    refine Memory.ext (s.doKpad.doKpad_wf hw1) hw1 fun a => ?_
    rw [s.doKpad.doKpad_read hw1, State.doKpad_MLEN, State.doKpad_paddedLen, s.doKpad_read hw]
    by_cases outside : a < s.MLEN.toNat ∨ s.paddedLen ≤ a
    · rw [if_pos outside]
    · rw [if_neg outside, if_neg outside]
  calc s.doKpad.doKpad
      = (s.doKpad.setBUF s.doKpad.doKpad.BUF).setPLEN (BitVec.ofNat 64 s.paddedLen) := rfl
    _ = (s.doKpad.setBUF s.doKpad.BUF).setPLEN (BitVec.ofNat 64 s.paddedLen) := by rw [buffer]
    _ = s.doKpad := rfl

/-- Settles O5: the bytes, the message and the frame by the laws of `doKpad`, with PLEN its padded length. -/
theorem kpadPadsTheMessageInPlace : Obligations.KpadPadsTheMessageInPlace := by
  refine ⟨rfl, fun s hw => ⟨fun overflow => ?fault, fun fits => ?pads⟩⟩
  case fault => exact ⟨_, execKpad_of_overflow overflow, raise_records s .bufferOverflow (encode .kpad)⟩
  case pads =>
    have plen : s.doKpad.PLEN.toNat = s.paddedLen := s.toNat_ofNat_paddedLen fits
    refine ⟨s.doKpad, execKpad_of_fits fits, plen, ?_⟩
    rw [plen]
    refine ⟨fun a lo hi => ?_, s.doKpad_readBytes hw, s.doKpad_frame_of_wf hw, ?_⟩
    · rw [s.doKpad_read hw, if_neg (by omega)]
    · have again : exec .kpad s.doKpad = .next s.doKpad.doKpad := execKpad_of_fits fits
      rw [again, s.doKpad_doKpad hw]

/-! ### KABSORB (R121, R123) -/

theorem execKabsorb_of_fits {s : State} {b : BitVec 16} (fits : b.toNat < s.nblk) :
    execKabsorb b s = .next (s.doKabsorb b.toNat) :=
  if_neg (Nat.not_lt.2 (Nat.mul_le_mul_left _ fits))

theorem execKabsorb_of_overflow {s : State} {b : BitVec 16} (overflow : s.nblk ≤ b.toNat) :
    execKabsorb b s = .next (s.raise .bufferOverflow (encode (.kabsorb b))) :=
  if_pos (Nat.mul_lt_mul_of_pos_left (Nat.lt_succ_of_le overflow) (by decide))

/-- What XORing a block changes in each byte of each lane (R121): byte `8j + k` of the block in byte `k` of lane `j`. -/
theorem xorBlock_xor_byte (A : Lanes) (blk : List Byte) (j : Fin 25) {k : Nat} (hk : k < 8) :
    ((xorBlock A blk)[j] ^^^ A[j]).extractLsb' (8 * k) 8 = if j.val < 17 then blk.getD (8 * j.val + k) 0 else 0#8 := by
  have lane : (xorBlock A blk)[j] ^^^ A[j] = if j.val < 17 then le64 blk (8 * j.val) else 0#64 := by
    simp only [xorBlock, Fin.getElem_fin, Vector.getElem_ofFn]
    split
    · rw [BitVec.xor_comm A[j.val], BitVec.xor_assoc, BitVec.xor_self, BitVec.xor_zero]
    · exact BitVec.xor_self
  rw [lane]
  split
  · exact le64Byte_le64 blk _ hk
  · exact BitVec.extractLsb'_zero

/-- Settles O6: the array between the two halves of `absorb_block` is the `X` of the statement. -/
theorem kabsorbAbsorbsOneBlock : Obligations.KabsorbAbsorbsOneBlock := by
  refine fun b s => ⟨encode_kabsorb_toNat b, fun overflow => ?fault, fun fits => ?absorbs⟩
  case fault => exact ⟨_, execKabsorb_of_overflow overflow, raise_records s .bufferOverflow _⟩
  case absorbs =>
    refine ⟨s.doKabsorb b.toNat, xorBlock s.S (s.BUF.readBytes (136 * b.toNat) 136), execKabsorb_of_fits fits,
      fun j k hk => ?_, rfl, setS_frame s _⟩
    rw [xorBlock_xor_byte _ _ j hk]
    split
    case isTrue hj => rw [Memory.readBytes_getD _ _ _ _ (by omega), Nat.add_assoc]
    case isFalse => rfl

/-! ### KSQUEEZE (R124, R125) -/

theorem squeeze_getElem (A : Lanes) (d : Fin 32) :
    (squeeze A)[d] = le64Byte A[Fin.ofNat 25 (d.val / 8)] (d.val % 8) := by
  simp only [squeeze, Fin.getElem_fin, Vector.getElem_ofFn, Fin.val_ofNat, Nat.mod_eq_of_lt (digestLane_lt d)]

/-- Word `j` of a squeezed digest is lane `j` (R57, R125). -/
theorem le64_squeeze (A : Lanes) (j : Fin 4) : le64 (squeeze A).toList (8 * j.val) = A[Fin.ofNat 25 j.val] := by
  refine lane_eq_of_bytes fun k hk => ?_
  have place : (Fin.ofNat 32 (8 * j.val + k)).val = 8 * j.val + k := Nat.mod_eq_of_lt (by omega)
  have lane : (8 * j.val + k) / 8 = j.val := by omega
  have byte : (8 * j.val + k) % 8 = k := by omega
  simp only [le64Byte_dig _ j hk, squeeze_getElem, place, lane, byte]

/-- Settles O7: `squeeze` byte by byte, and eight of its bytes as the word that the bus reads. -/
theorem ksqueezeCapturesTheDigest : Obligations.KsqueezeCapturesTheDigest := by
  refine ⟨rfl, fun s => ⟨s.doKsqueeze, rfl, squeeze_getElem s.S, fun j => ?word, setDIG_frame s _⟩⟩
  case word =>
    rw [State.busRead_located _ (locate_dig _ j)]
    exact congrArg BusReply.data (le64_squeeze s.S j)

/-! ### KHASH (R126, R127) -/

theorem execKhash_of_fits {s : State} (fits : s.MLEN.toNat < s.bufCap) : execKhash s = .next s.doKhash :=
  if_neg (Nat.not_lt.2 (s.paddedLen_le_bufCap.2 fits))

theorem execKhash_of_overflow {s : State} (overflow : s.bufCap ≤ s.MLEN.toNat) :
    execKhash s = .next (s.raise .bufferOverflow (encode .khash)) :=
  if_pos (s.bufCap_lt_paddedLen.2 overflow)

/-- The lanes after the first `n` blocks of a byte sequence are absorbed into zero lanes (R126). -/
def lanesAfterBlocks (B : List Byte) (n : Nat) : Lanes :=
  (List.range n).foldl (fun A k => absorbBlock A (blockOf B k)) zeroLanes

theorem keccak256_eq (M : List Byte) : keccak256 M = squeeze (lanesAfterBlocks (pad M) (M.length / 136 + 1)) := by
  rw [keccak256, pad_length, Config.rateBytes, Nat.mul_div_cancel_left _ (by decide), lanesAfterBlocks]

/-- What KHASH leaves (R127), in terms of the padded message: KPAD's state with the lanes after its last block, and the
digest of these lanes. -/
theorem State.doKhash_eq_of_wf {s : State} (hw : s.BUF.wf) :
    s.doKhash =
      (s.doKpad.setS (lanesAfterBlocks (pad (s.BUF.readBytes 0 s.MLEN.toNat)) (s.MLEN.toNat / 136 + 1))).setDIG
        (keccak256 (s.BUF.readBytes 0 s.MLEN.toNat)) := by
  have count : s.paddedLen / 136 = s.MLEN.toNat / 136 + 1 := Nat.mul_div_cancel_left _ (by decide)
  have blocks : (List.range (s.paddedLen / 136)).foldl
      (fun A k => absorbBlock A (s.doKpad.BUF.readBytes (136 * k) 136)) zeroLanes =
      lanesAfterBlocks (pad (s.BUF.readBytes 0 s.MLEN.toNat)) (s.paddedLen / 136) := by
    refine List.foldl_ext _ _ _ fun A k hk => ?_
    have inside : 136 * k + 136 ≤ s.paddedLen := by
      have := List.mem_range.1 hk
      omega
    rw [← s.doKpad_readBytes hw, Memory.blockOf_readBytes _ inside]
  rw [s.doKhash_eq, blocks, keccak256_eq, Memory.readBytes_length, count]

/-- KPAD neither reads nor writes the lanes and the digest. -/
theorem State.doKpad_setS_setDIG (s : State) (L : Lanes) (d : Vector Byte 32) :
    ((s.setS L).setDIG d).doKpad = (s.doKpad.setS L).setDIG d := rfl

/-- Lanes and a digest stored again are the ones that stay. -/
theorem State.setS_setDIG_twice (s : State) (L L' : Lanes) (d d' : Vector Byte 32) :
    (((s.setS L).setDIG d).setS L').setDIG d' = (s.setS L').setDIG d' := rfl

/-- A second KHASH pads an already padded buffer, which changes nothing, and so absorbs the same blocks (R127). -/
theorem State.doKhash_doKhash {s : State} (hw : s.BUF.wf) : s.doKhash.doKhash = s.doKhash := by
  have padded : s.doKhash.doKpad = s.doKhash := by
    rw [s.doKhash_eq, State.doKpad_setS_setDIG, s.doKpad_doKpad hw]
  have length : s.doKhash.paddedLen = s.paddedLen := by rw [State.paddedLen, State.paddedLen, State.doKhash_MLEN]
  rw [s.doKhash.doKhash_eq, padded, length, State.doKhash_BUF, s.doKhash_eq, State.setS_setDIG_twice]

/-- Settles O8: the buffer is the one KPAD leaves, and the lanes and the digest are those of its padded message. -/
theorem khashDigestsTheMessage : Obligations.KhashDigestsTheMessage := by
  refine ⟨rfl, fun s hw => ⟨fun overflow => ?fault, fun fits => ?hashes⟩⟩
  case fault => exact ⟨_, execKhash_of_overflow overflow, raise_records s .bufferOverflow (encode .khash)⟩
  case hashes =>
    have plen : s.doKhash.PLEN.toNat = s.paddedLen := by rw [State.doKhash_PLEN, s.toNat_ofNat_paddedLen fits]
    refine ⟨s.doKhash, execKhash_of_fits fits, ?digest, ?lanes, plen, ?_⟩
    case digest => rw [s.doKhash_eq_of_wf hw, State.setDIG_DIG]
    case lanes =>
      rw [s.doKhash_eq_of_wf hw]
      rfl
    rw [plen]
    refine ⟨?buffer, ?frame, ?again⟩
    case buffer => rw [State.doKhash_BUF, s.doKpad_readBytes hw]
    case frame =>
      exact doKhash_frame (keepsAllBut_mono (s.doKpad_frame_of_wf hw) fun p changed => .inr (.inr changed))
        (.inl rfl) (.inr (.inl rfl))
    case again =>
      have again : exec .khash s.doKhash = .next s.doKhash.doKhash :=
        execKhash_of_fits (by rwa [State.doKhash_MLEN, State.doKhash_bufCap])
      rw [again, s.doKhash_doKhash hw]

/-! ### KHASH as its parts (R128) -/

theorem State.absorbBlocks_succ (s : State) (n : Nat) : s.absorbBlocks (n + 1) = (s.absorbBlocks n).doKabsorb n := by
  rw [State.absorbBlocks, State.absorbBlocks, List.range_succ, List.foldl_append, List.foldl_cons, List.foldl_nil]

theorem State.absorbBlocks_nblk (s : State) (n : Nat) : (s.absorbBlocks n).nblk = s.nblk := by
  rw [s.absorbBlocks_eq, State.setS_nblk]

/-- KABSORB of the block after the first `k` that are absorbed; a block of the buffer has a 16-bit index (R8). -/
theorem execKabsorb_absorbBlocks {s : State} {k : Nat} (hk : k < s.nblk) :
    execKabsorb (BitVec.ofNat 16 k) (s.absorbBlocks k) = .next (s.absorbBlocks (k + 1)) := by
  obtain ⟨-, bound⟩ := s.nblk_bounds
  have index : (BitVec.ofNat 16 k).toNat = k := by rw [BitVec.toNat_ofNat, Nat.mod_eq_of_lt (by omega)]
  rw [execKabsorb_of_fits (by rwa [index, s.absorbBlocks_nblk]), index, s.absorbBlocks_succ]

/-- Settles O9: `f k` is the state after the first `k` blocks of the padded buffer. -/
theorem khashEqualsItsParts : Obligations.KhashEqualsItsParts := by
  intro s fits
  have padded : s.paddedLen ≤ 136 * s.nblk := s.paddedLen_le_bufCap.2 fits
  have plen : (s.doKinit.doKpad.absorbBlocks 0).PLEN.toNat = s.paddedLen := s.toNat_ofNat_paddedLen fits
  refine ⟨s.doKinit, s.doKinit.doKpad.absorbBlocks, s.doKhash, rfl, execKpad_of_fits fits, ?blocks, ?digest,
    execKhash_of_fits fits⟩
  case blocks =>
    intro k hk
    rw [plen] at hk
    exact execKabsorb_absorbBlocks (show k < s.nblk by omega)
  case digest =>
    rw [plen]
    rfl

end Sys2Proof.Machine

/-! PROOFS. Modular arithmetic (R140 to R147). MODMUL, MODPOW and MODINV have one shape: a check of the modulus, then a
residue modulo it, computed exactly and written to `rd`. That shape is proved once; each command is its equation, with
the power that the loop computes. -/

namespace Sys2Proof.Machine

/-! ### The words (R82 formats M4, M3 and C) -/

theorem packFields_xfields_toNat (op : BitVec 8) (a b c d : XReg) :
    (packFields op (xfield a) (xfield b) (xfield c) (xfield d)).toNat =
      op.toNat + 256 * a.val + 4096 * b.val + 65536 * c.val + 1048576 * d.val := by
  simp only [packFields_toNat, xfield_toNat]

/-- The field that format M3 leaves 0 reads as that of `x0`. -/
theorem encode_modinv_toNat (rd rs1 rm : XReg) :
    (encode (.modinv rd rs1 rm)).toNat = 0x12 + 256 * rd.val + 4096 * rs1.val + 1048576 * rm.val :=
  packFields_xfields_toNat 0x12 rd rs1 0 rm

theorem encode_ldc_toNat (rd : XReg) (c : CurveConst) :
    (encode (.ldc rd c)).toNat = 0x13 + 256 * rd.val + 4096 * c.field.toNat := by
  rw [encode, packFields_toNat, xfield_toNat]
  rfl

/-! ### A check of the modulus, then a residue -/

/-- A residue modulo a register's contents fits a register (R141). -/
theorem State.writeX_residue_toNat (s : State) (rd rm : XReg) (v : Nat) (nonzero : s.x[rm].toNat ≠ 0) :
    (s.writeX rd (v % s.x[rm].toNat)).x[rd].toNat = v % s.x[rm].toNat := by
  have below : v % s.x[rm].toNat < 2 ^ 256 := (Nat.mod_lt _ (Nat.pos_of_ne_zero nonzero)).trans s.x[rm].isLt
  rw [State.writeX, State.setX_self, BitVec.toNat_ofNat, Nat.mod_eq_of_lt below]

section ModulusChecked

variable {i : Instr} {s : State} {rd rm : XReg} {v : Nat} {outOfRange : Prop} [Decidable outOfRange]

theorem exec_records_modulusRange {t : State} (run : exec i s =
      if outOfRange then .next (s.raise .modulusRange (encode i)) else .next t) (h : outOfRange) :
    ∃ u, exec i s = .next u ∧ recordsFault s u 3 (encode i) :=
  ⟨_, run.trans (if_pos h), raise_records s .modulusRange (encode i)⟩

theorem exec_writes_residue (run : exec i s = if outOfRange then .next (s.raise .modulusRange (encode i))
      else .next (s.writeX rd (v % s.x[rm].toNat))) (h : ¬ outOfRange) (nonzero : s.x[rm].toNat ≠ 0) :
    ∃ t, exec i s = .next t ∧ t.x[rd].toNat = v % s.x[rm].toNat ∧ keepsAllBut (fun p => p = .x rd) s t :=
  ⟨_, run.trans (if_neg h), s.writeX_residue_toNat rd rm v nonzero, setX_frame s rd _⟩

end ModulusChecked

/-! ### The three commands (R143, R144, R146) -/

theorem exec_modmul (rd rs1 rs2 rm : XReg) (s : State) :
    exec (.modmul rd rs1 rs2 rm) s =
      if s.x[rm].toNat = 0 then .next (s.raise .modulusRange (encode (.modmul rd rs1 rs2 rm)))
      else .next (s.writeX rd (s.x[rs1].toNat * s.x[rs2].toNat % s.x[rm].toNat)) := rfl

theorem exec_modpow (rd rs1 rs2 rm : XReg) (s : State) :
    exec (.modpow rd rs1 rs2 rm) s =
      if s.x[rm].toNat = 0 then .next (s.raise .modulusRange (encode (.modpow rd rs1 rs2 rm)))
      else .next (s.writeX rd (s.x[rs1].toNat ^ s.x[rs2].toNat % s.x[rm].toNat)) := by
  rw [← modpow_eq]
  rfl

/-- The Fermat formula as a power, for every modulus (R145). -/
theorem modinv_eq (a m : Nat) : modinv a m = a ^ (m - 2) % m := modpow_eq a (m - 2) m

theorem exec_modinv (rd rs1 rm : XReg) (s : State) :
    exec (.modinv rd rs1 rm) s =
      if s.x[rm].toNat < 2 then .next (s.raise .modulusRange (encode (.modinv rd rs1 rm)))
      else .next (s.writeX rd (s.x[rs1].toNat ^ (s.x[rm].toNat - 2) % s.x[rm].toNat)) := by
  rw [← modinv_eq]
  rfl

/-- Settles O10. -/
theorem modmulReducesTheFullProduct : Obligations.ModmulReducesTheFullProduct := fun rd rs1 rs2 rm s =>
  have run := exec_modmul rd rs1 rs2 rm s
  ⟨packFields_xfields_toNat 0x10 rd rs1 rs2 rm, exec_records_modulusRange run,
    fun nonzero => exec_writes_residue run nonzero nonzero⟩

/-- Settles O11: the loop of the model is the power by `modpow_eq`. -/
theorem modpowIsThePower : Obligations.ModpowIsThePower := fun rd rs1 rs2 rm s =>
  have run := exec_modpow rd rs1 rs2 rm s
  ⟨packFields_xfields_toNat 0x11 rd rs1 rs2 rm, exec_records_modulusRange run,
    fun nonzero => exec_writes_residue run nonzero nonzero⟩

/-- Settles O12: a modulus from 2 on passes the check and is not 0, so that the power is a residue below it. -/
theorem modinvIsTheFermatPower : Obligations.ModinvIsTheFermatPower := fun rd rs1 rm s =>
  have run := exec_modinv rd rs1 rm s
  ⟨encode_modinv_toNat rd rs1 rm, exec_records_modulusRange run,
    fun two_le => exec_writes_residue run two_le.not_gt (Nat.ne_zero_of_lt two_le)⟩

/-- Two runs that write equal numbers leave the same register. -/
theorem exec_same_register {i : Instr} {s s' : State} {rd : XReg} {v v' : Nat} {frame frame' : State → Prop}
    (result : ∃ t, exec i s = .next t ∧ t.x[rd].toNat = v ∧ frame t)
    (result' : ∃ t, exec i s' = .next t ∧ t.x[rd].toNat = v' ∧ frame' t) (same : v' = v) :
    ∃ t t', exec i s = .next t ∧ exec i s' = .next t' ∧ t'.x[rd] = t.x[rd] := by
  obtain ⟨t, run, value, -⟩ := result
  obtain ⟨t', run', value', -⟩ := result'
  exact ⟨t, t', run, run', BitVec.eq_of_toNat_eq (value'.trans (same.trans value.symm))⟩

/-- Settles O15: products and powers respect congruence. -/
theorem operandsMayExceedTheModulus : Obligations.OperandsMayExceedTheModulus := by
  intro rd rs1 rs2 rm s s' same_modulus nonzero congr1
  have nonzero' : s'.x[rm].toNat ≠ 0 := by rwa [same_modulus]
  refine ⟨fun congr2 => ?modmul, fun same_exponent => ?modpow⟩
  case modmul =>
    refine exec_same_register (exec_writes_residue (exec_modmul rd rs1 rs2 rm s) nonzero nonzero)
      (exec_writes_residue (exec_modmul rd rs1 rs2 rm s') nonzero' nonzero') ?_
    rw [same_modulus]
    exact Nat.ModEq.mul congr1 congr2
  case modpow =>
    refine exec_same_register (exec_writes_residue (exec_modpow rd rs1 rs2 rm s) nonzero nonzero)
      (exec_writes_residue (exec_modpow rd rs1 rs2 rm s') nonzero' nonzero') ?_
    rw [same_modulus, same_exponent]
    exact Nat.ModEq.pow _ congr1

/-! ### The Fermat power as an inverse (R145) -/

/-- Fermat's little theorem, for the power that the model computes. -/
theorem mul_modinv_of_prime {a m : Nat} (prime : m.Prime) (h : a % m ≠ 0) : a * modinv a m % m = 1 := by
  have coprime : a.Coprime m :=
    ((Nat.Prime.coprime_iff_not_dvd prime).2 fun dvd => h (Nat.mod_eq_zero_of_dvd dvd)).symm
  have exponent : m - 2 + 1 = m - 1 := by have := prime.two_le; omega
  calc a * modinv a m % m
      = a ^ (m - 1) % m := by rw [modinv_eq, Nat.mul_mod_mod, ← pow_succ', exponent]
    _ = 1 % m := by rw [← Nat.totient_prime prime]; exact Nat.ModEq.pow_totient coprime
    _ = 1 := Nat.mod_eq_of_lt prime.one_lt

/-- A power of a multiple is 0 unless its exponent is, and the exponent is 0 only for the modulus 2. -/
theorem modinv_of_dvd {a m : Nat} (two_lt : 2 < m) (h : a % m = 0) : modinv a m = 0 := by
  rw [modinv_eq, Nat.pow_mod, h, zero_pow (Nat.sub_ne_zero_of_lt two_lt), Nat.zero_mod]

/-- Settles O13: with modulus 2 the exponent is 0. -/
theorem fermatPowerInvertsModuloAPrime : Obligations.FermatPowerInvertsModuloAPrime :=
  ⟨fun a m _ => modinv_eq a m, fun _ _ => mul_modinv_of_prime, fun _ _ => modinv_of_dvd, fun a => modinv_eq a 2⟩

/-! ### The constants (R140, R147) -/

theorem exec_ldc (rd : XReg) (c : CurveConst) (s : State) : exec (.ldc rd c) s = .next (s.setX rd (romConst c)) := rfl

/-- Settles O16: each constant by its number, each selector by its place in the word. -/
theorem ldcLoadsTheConstants : Obligations.LdcLoadsTheConstants := by
  intro rd c s
  refine ⟨_, exec_ldc rd c s, ?_, setX_frame s rd _⟩
  rw [State.setX_self]
  cases c with
  | p => exact ⟨encode_ldc_toNat rd .p, rfl⟩
  | n => exact ⟨encode_ldc_toNat rd .n, rfl⟩
  | gx => exact ⟨encode_ldc_toNat rd .gx, rfl⟩
  | gy => exact ⟨encode_ldc_toNat rd .gy, rfl⟩

end Sys2Proof.Machine

/-! PROOFS. The arithmetic of point addition (R160, R161, R169). `inv_p` and the slope are functions of residues modulo the
field prime: that gives the inverse, slope 0 where the denominator is a multiple of the prime, and the doubling of a point
with unreduced coordinates. -/

namespace Sys2Proof.Machine

/-! ### The Fermat inverse modulo the field prime (R160) -/

theorem fieldPrime_cast : (fieldPrime.toNat : Int) = primeP := pInt_eq

/-- The residue that `inv_p` starts from, reduced again by the modular functions. -/
theorem modP_mod_cast (a : Int) : ((modP a % fieldPrime.toNat : Nat) : Int) = a % primeP := by
  rw [Int.natCast_mod, modP_cast, fieldPrime_cast, Int.emod_emod]

theorem modP_mod_eq_zero_iff (a : Int) : modP a % fieldPrime.toNat = 0 ↔ a % primeP = 0 := by
  rw [← modP_mod_cast, Int.natCast_eq_zero]

/-- The field prime is prime, so the Fermat power inverts what it does not divide. -/
theorem mul_invP {a : Int} (h : a % primeP ≠ 0) : a * (invP a : Int) % primeP = 1 := by
  have inverse : modP a * invP a % fieldPrime.toNat = 1 :=
    mul_modinv_of_prime fieldPrime_prime (mt (modP_mod_eq_zero_iff a).1 h)
  calc a * (invP a : Int) % primeP
      = modP a * (invP a : Int) % primeP := by rw [modP_cast]; exact (Int.mod_modEq a primeP).symm.mul_right _
    _ = ((modP a * invP a % fieldPrime.toNat : Nat) : Int) := by rw [Int.natCast_mod, Int.natCast_mul, fieldPrime_cast]
    _ = 1 := by rw [inverse, Int.natCast_one]

theorem invP_of_multiple {a : Int} (h : a % primeP = 0) : invP a = 0 :=
  modinv_of_dvd (by decide) ((modP_mod_eq_zero_iff a).2 h)

/-- Settles O14. -/
theorem fieldInverseInverts : Obligations.FieldInverseInverts :=
  fun a => ⟨invP_cast a, mul_invP, invP_of_multiple⟩

/-! ### Slope 0 (R169, first three rows) -/

theorem fermatInv_of_multiple {a : Int} (h : a % primeP = 0) : fermatInv a = 0 := by
  rw [← invP_cast, invP_of_multiple h, Int.natCast_zero]

/-- The chord's denominator is a multiple of the prime. -/
theorem slopeOf_eq_zero_of_congr_x {x1 y1 x2 y2 : Int} (apart : ¬ (x1 = x2 ∧ y1 = y2))
    (same_x : x1 ≡ x2 [ZMOD primeP]) : slopeOf x1 y1 x2 y2 = 0 := by
  rw [slopeOf, if_neg apart, fermatInv_of_multiple (Int.emod_eq_zero_of_dvd same_x.dvd), mul_zero, Int.zero_emod]

/-- The tangent's denominator is a multiple of the prime. -/
theorem slopeOf_eq_zero_of_multiple_y {x y : Int} (h : y % primeP = 0) : slopeOf x y x y = 0 := by
  have multiple : 2 * y % primeP = 0 := by rw [Int.mul_emod, h, mul_zero, Int.zero_emod]
  rw [slopeOf, if_pos ⟨rfl, rfl⟩, fermatInv_of_multiple multiple, mul_zero, Int.zero_emod]

/-- With slope 0 the sum is a pair: the line through the first point is horizontal (R161). -/
theorem padd_of_slope_zero {x1 y1 x2 y2 : XWord} (slope : slopeOf x1.toNat y1.toNat x2.toNat y2.toNat = 0) :
    ∃ a b : XWord, padd (.pt x1 y1) (.pt x2 y2) = .pt a b ∧
      (a.toNat : Int) = (-(x1.toNat : Int) - x2.toNat) % primeP ∧ (b.toNat : Int) = (-(y1.toNat : Int)) % primeP := by
  obtain ⟨a, b, sum, ha, hb⟩ := padd_spec (.pt x1 y1) (.pt x2 y2)
  rw [slope, zero_mul, zero_sub] at ha hb
  exact ⟨a, b, sum, ha, hb⟩

/-- Settles O23: in the three rows the denominator of the slope is a multiple of the prime. -/
theorem exceptionalAdditionsHaveSlopeZero : Obligations.ExceptionalAdditionsHaveSlopeZero := by
  refine ⟨fun x1 y1 x2 y2 apart same_x => ?chord, fun x y multiple => ?tangent⟩
  case chord =>
    rw [xword_eq_iff_int, xword_eq_iff_int] at apart
    exact padd_of_slope_zero (slopeOf_eq_zero_of_congr_x apart same_x)
  case tangent =>
    obtain ⟨a, b, sum, ha, hb⟩ := padd_of_slope_zero (slopeOf_eq_zero_of_multiple_y multiple)
    exact ⟨a, b, sum, by rw [ha]; ring_nf, hb⟩

/-! ### Doubling respects congruence (R169, fourth row) -/

theorem fermatInv_congr {a b : Int} (h : a ≡ b [ZMOD primeP]) : fermatInv a = fermatInv b := by
  rw [fermatInv, fermatInv, h]

theorem slopeOf_double_congr {x y x' y' : Int} (hx : x' ≡ x [ZMOD primeP]) (hy : y' ≡ y [ZMOD primeP]) :
    slopeOf x' y' x' y' = slopeOf x y x y := by
  rw [slopeOf, slopeOf, if_pos ⟨rfl, rfl⟩, if_pos ⟨rfl, rfl⟩, fermatInv_congr (hy.mul_left 2)]
  exact ((hx.mul_left 3).mul hx).mul_right _

theorem padd_double_congr {x y x' y' : XWord} (hx : (x'.toNat : Int) ≡ x.toNat [ZMOD primeP])
    (hy : (y'.toNat : Int) ≡ y.toNat [ZMOD primeP]) : padd (.pt x' y') (.pt x' y') = padd (.pt x y) (.pt x y) := by
  obtain ⟨a, b, sum, ha, hb⟩ := padd_spec (.pt x y) (.pt x y)
  obtain ⟨a', b', sum', ha', hb'⟩ := padd_spec (.pt x' y') (.pt x' y')
  rw [slopeOf_double_congr hx hy] at ha' hb'
  obtain rfl : a' = a := by
    rw [xword_eq_iff_int, ha, ha']
    exact (hx.sub_left _).sub hx
  obtain rfl : b' = b := by
    rw [xword_eq_iff_int, hb, hb']
    exact ((hx.sub_right _).mul_left _).sub hy
  rw [sum, sum']

/-- Settles O24: a residue is congruent to what it is the residue of. -/
theorem doublingReducesItsOperand : Obligations.DoublingReducesItsOperand := by
  intro x y x' y' hx hy
  have congr {u v : Int} (h : u = v % primeP) : u ≡ v [ZMOD primeP] := h ▸ Int.mod_modEq v primeP
  exact (padd_double_congr (congr hx) (congr hy)).symm

end Sys2Proof.Machine

/-! PROOFS. Scalar multiplication and the four point commands (R162 to R167). A command answers a next state with one point
register written; what it wrote is `padd_spec` or, along the scan of the scalar, the two sequences of `smulAfter`. -/

namespace Sys2Proof.Machine

/-! ### The scan of the scalar (R162) -/

section Scan

variable (k : Nat) (P : Point) (i : Nat)

theorem smulAfter_succ_addend :
    (smulAfter k P (i + 1)).2 = padd (smulAfter k P i).2 (smulAfter k P i).2 := by
  rw [smulAfter_succ, smulStep]

theorem smulAfter_succ_sum :
    (smulAfter k P (i + 1)).1 =
      if k.testBit i then padd (smulAfter k P i).1 (smulAfter k P i).2 else (smulAfter k P i).1 := by
  rw [smulAfter_succ, smulStep]

theorem smulAfter_inf : smulAfter k .inf i = (.inf, .inf) := by
  induction i with
  | zero => rfl
  | succ n ih => rw [smulAfter_succ, ih, smulStep, padd_inf_left, ite_self]

end Scan

theorem two_pow_le_of_bitlen (k : Nat) : bitlen k = 0 ∨ 2 ^ (bitlen k - 1) ≤ k := by
  by_cases h : k = 0
  · exact .inl (by rw [h, bitlen_zero])
  · exact .inr (two_pow_bitlen_le h)

/-- `smul` is the double-and-add that R162 writes: its accumulator and its addend are the two sequences. -/
theorem smul_spec (k : Nat) (u : Point) : ScalarMultiple k u (smul k u) := by
  refine ⟨bitlen k, fun i => (smulAfter k u i).1, fun i => (smulAfter k u i).2, lt_two_pow_bitlen k,
    two_pow_le_of_bitlen k, rfl, rfl, fun i _ => ⟨?double, fun set => ?add, fun clear => ?keep⟩, smul_eq_smulAfter k u⟩
  case double =>
    simp only [smulAfter_succ_addend]
    exact padd_spec _ _
  case add =>
    simp only [smulAfter_succ_sum, if_pos set]
    exact padd_spec _ _
  case keep => simp only [smulAfter_succ_sum, clear, Bool.false_eq_true, if_false]

theorem smul_zero_left (P : Point) : smul 0 P = .inf := rfl

/-- One iteration, which adds the point to the identity (R162). -/
theorem smul_one_left (P : Point) : smul 1 P = P := by
  have one_bit : bitlen 1 = 0 + 1 := by decide
  rw [smul_eq_smulAfter, one_bit, smulAfter_succ_sum, smulAfter_zero, if_pos (by decide), padd_inf_left]

theorem smul_inf (k : Nat) : smul k .inf = .inf := by rw [smul_eq_smulAfter, smulAfter_inf]

/-- Settles O20. -/
theorem smulOfZeroOneAndTheIdentity : Obligations.SmulOfZeroOneAndTheIdentity :=
  ⟨smul_zero_left, smul_one_left, smul_inf⟩

/-! ### The words (R82 formats P3, P2, PS and P1) -/

theorem encode_padd_toNat (pd pa pb : PReg) :
    (encode (.padd pd pa pb)).toNat = 0x20 + 256 * pd.val + 4096 * pa.val + 65536 * pb.val := by
  rw [encode, packFields_toNat, pfield_toNat, pfield_toNat, pfield_toNat]
  rfl

theorem encode_pdbl_toNat (pd pa : PReg) :
    (encode (.pdbl pd pa)).toNat = 0x21 + 256 * pd.val + 4096 * pa.val := by
  rw [encode, packFields_toNat, pfield_toNat, pfield_toNat]
  rfl

theorem encode_smul_toNat (pd : PReg) (rk : XReg) (pa : PReg) :
    (encode (.smul pd rk pa)).toNat = 0x22 + 256 * pd.val + 4096 * rk.val + 65536 * pa.val := by
  rw [encode, packFields_toNat, pfield_toNat, xfield_toNat, pfield_toNat]
  rfl

theorem encode_ldg_toNat (pd : PReg) : (encode (.ldg pd)).toNat = 0x23 + 256 * pd.val := by
  rw [encode, packFields_toNat, pfield_toNat]
  rfl

/-! ### The commands (R163 to R165, R167) -/

theorem exec_padd (pd pa pb : PReg) (s : State) :
    exec (.padd pd pa pb) s = .next (s.writePoint pd (padd s.P[pa].value s.P[pb].value)) := rfl

/-- PDBL is PADD of the point with itself (R164). -/
theorem exec_pdbl_eq_padd (pd pa : PReg) (s : State) : exec (.pdbl pd pa) s = exec (.padd pd pa pa) s := rfl

theorem exec_smul (pd : PReg) (rk : XReg) (pa : PReg) (s : State) :
    exec (.smul pd rk pa) s = .next (s.writePoint pd (smul s.x[rk].toNat s.P[pa].value)) := rfl

theorem exec_ldg (pd : PReg) (s : State) : exec (.ldg pd) s = .next (s.writePoint pd generator) := rfl

/-- What a command that writes a point leaves: the register as R24 says, and every other part as it was. -/
theorem State.writePoint_stores (s : State) (pd : PReg) (r : Point) :
    storedAs (s.writePoint pd r).P[pd] r ∧ keepsAllBut (fun p => p = .P pd) s (s.writePoint pd r) := by
  rw [State.writePoint_self]
  exact ⟨storedAs_stored r, setP_frame s pd r.stored⟩

/-- Settles O17. -/
theorem paddAddsTwoPoints : Obligations.PaddAddsTwoPoints := fun pd pa pb s =>
  ⟨encode_padd_toNat pd pa pb, _, _, exec_padd pd pa pb s, padd_spec _ _, s.writePoint_stores pd _⟩

/-- Settles O18. -/
theorem pdblDoublesAPoint : Obligations.PdblDoublesAPoint := fun pd pa s =>
  have run := exec_padd pd pa pa s
  ⟨encode_pdbl_toNat pd pa, _, _, (exec_pdbl_eq_padd pd pa s).trans run, run, padd_spec _ _, s.writePoint_stores pd _⟩

/-- Settles O19. -/
theorem smulAddsByTheBitsOfTheScalar : Obligations.SmulAddsByTheBitsOfTheScalar := fun pd rk pa s =>
  ⟨encode_smul_toNat pd rk pa, _, _, exec_smul pd rk pa s, smul_spec _ _, s.writePoint_stores pd _⟩

/-- The generator satisfies the curve equation (R2, R140, R170). -/
theorem generator_onCurve : OnCurve genX genY := by
  unfold OnCurve
  decide +kernel

/-- Settles O22. -/
theorem ldgLoadsTheGenerator : Obligations.LdgLoadsTheGenerator := by
  intro pd s
  obtain ⟨⟨inf, x, y⟩, frame⟩ := s.writePoint_stores pd generator
  refine ⟨encode_ldg_toNat pd, _, exec_ldg pd s, inf, ?_, ?_, ?_, frame⟩
  · rw [x]; rfl
  · rw [y]; rfl
  · rw [x, y]; exact generator_onCurve

end Sys2Proof.Machine

/-! PROOFS. The derivation pipeline (R180 to R184). PSER and K2ADDR fault for the identity and serialise any other point; a
serialised key fills one block with its padding, so what K2ADDR leaves is said once, in terms of the point alone. -/

namespace Sys2Proof.Machine

/-! ### Multiples that are the identity (R183) -/

/-- A sum whose right operand is not the identity is not the identity. -/
theorem padd_ne_inf {u v : Point} (hv : v ≠ .inf) : padd u v ≠ .inf := by
  cases u with
  | inf => exact hv
  | pt x1 y1 =>
    cases v with
    | inf => exact absurd rfl hv
    | pt x2 y2 => exact padd_pt_ne_inf x1 y1 x2 y2

/-- The last iteration of the scan adds, the highest bit of a scalar other than 0 being set (R162). -/
theorem smul_pt_ne_inf {k : Nat} (hk : k ≠ 0) (x y : XWord) : smul k (.pt x y) ≠ .inf := by
  rw [smul_eq_smulAfter, bitlen_pos hk, smulAfter_succ_sum, if_pos (Nat.testBit_log2 hk)]
  exact padd_ne_inf (smulAfter_addend_ne_inf k x y _)

/-- Settles O21. -/
theorem smulGivesTheIdentityOnlyForZero : Obligations.SmulGivesTheIdentityOnlyForZero := by
  refine fun k x y => ⟨fun identity => ?_, fun zero => ?_⟩
  · by_contra hk
    exact smul_pt_ne_inf hk x y identity
  · rw [zero, smul_zero_left]

/-- The public key of a key other than 0 is a pair of coordinates (R183). -/
theorem exists_public_key {k : Nat} (hk : k ≠ 0) : ∃ x y : XWord, smul k generator = .pt x y := by
  cases h : smul k generator with
  | inf => exact absurd h (smul_pt_ne_inf hk genX genY)
  | pt x y => exact ⟨x, y, rfl⟩

/-! ### PSER (R180, R181) -/

theorem encode_pser_toNat (pa : PReg) : (encode (.pser pa)).toNat = 0x24 + 4096 * pa.val := by
  rw [encode, packFields_toNat, pfield_toNat]
  rfl

theorem PointReg.value_of_inf {r : PointReg} (h : r.inf = true) : r.value = .inf := if_pos h

theorem PointReg.value_of_not_inf {r : PointReg} (h : r.inf = false) : r.value = .pt r.x r.y := by
  rw [PointReg.value, h]
  rfl

theorem exec_pser_of_inf {pa : PReg} {s : State} (h : s.readPoint pa = .inf) :
    exec (.pser pa) s = .next (s.raise .identityOperand (encode (.pser pa))) := by
  rw [exec, execPser, h]

theorem exec_pser_of_pt {pa : PReg} {s : State} {x y : XWord} (h : s.readPoint pa = .pt x y) :
    exec (.pser pa) s = .next (s.doSerialise x y) := by
  rw [exec, execPser, h]

/-- A serialisation changes the first 64 bytes and MLEN only (R181). -/
theorem State.doSerialise_frame_of_wf {s : State} (hw : s.BUF.wf) (x y : XWord) :
    keepsAllBut (fun p => p = .mlen ∨ ∃ a, p = .byte a ∧ a < 64) s (s.doSerialise x y) := by
  refine keepsAllBut_mono (doSerialise_frame s x y) fun p changed => ?_
  obtain ⟨a, rfl, range⟩ | rfl := changed
  · exact .inr ⟨a, rfl, (range hw).2⟩
  · exact .inl rfl

/-- Settles O26: the bytes are those of `ser`, at the front of the buffer. -/
theorem pserSerialisesThePoint : Obligations.PserSerialisesThePoint := by
  refine fun pa s hw => ⟨encode_pser_toNat pa, fun inf => ?fault, fun finite => ?serialises⟩
  case fault =>
    exact ⟨_, exec_pser_of_inf (PointReg.value_of_inf inf), raise_records s .identityOperand _⟩
  case serialises =>
    refine ⟨_, exec_pser_of_pt (PointReg.value_of_not_inf finite), ?mlen, fun j hj => ?bytes,
      s.doSerialise_frame_of_wf hw _ _⟩
    case mlen => rw [State.doSerialise_MLEN]; rfl
    case bytes =>
      rw [s.doSerialise_read _ _ hw, s.doSerialise_read _ _ hw, if_pos (by omega), if_pos (by omega)]
      exact ser_getD _ _ hj

/-! ### What a serialised and hashed point leaves (R183)

`(s.doSerialise x y).doKhash` is the state after K2ADDR of a key whose multiple of the generator is `Pt(x, y)`. -/

section Derived

variable {s : State} (hw : s.BUF.wf) (x y : XWord)

/-- The lanes after a message that is padded to one block (R127). -/
theorem State.doKhash_S_of_one_block (one : s.paddedLen = 136) :
    s.doKhash.S = absorbBlock zeroLanes (s.doKhash.BUF.readBytes 0 136) := by
  rw [s.doKhash_eq, one]
  rfl

theorem derived_MLEN : (s.doSerialise x y).doKhash.MLEN = 64#64 := by
  rw [State.doKhash_MLEN, State.doSerialise_MLEN]

theorem derived_PLEN : (s.doSerialise x y).doKhash.PLEN = 136#64 := by
  rw [State.doKhash_PLEN, State.doSerialise_paddedLen]

include hw

/-- The first block of the buffer is the padded serialised point. -/
theorem derived_block : (s.doSerialise x y).doKhash.BUF.readBytes 0 136 = pad (ser x y) := by
  have padded := State.doKpad_readBytes (s.doSerialise_wf x y hw)
  rwa [State.doSerialise_paddedLen, State.doSerialise_MLEN, show (64#64).toNat = 64 from rfl,
    s.doSerialise_readBytes x y hw, ← State.doKhash_BUF] at padded

theorem derived_read {a : Nat} (ha : a < 136) :
    (s.doSerialise x y).doKhash.BUF.read a = (pad (ser x y)).getD a 0 := by
  rw [← derived_block hw, Memory.readBytes_getD _ _ _ _ ha, Nat.zero_add]

theorem derived_read_of_lt {a : Nat} (ha : a < 64) :
    (s.doSerialise x y).doKhash.BUF.read a = (ser x y).getD a 0 := by
  rw [derived_read hw _ _ (by omega), pad_getD _ (by rw [pad_length, ser_length]; omega), if_pos (by rwa [ser_length])]

theorem derived_read_of_padding {a : Nat} (lo : 64 ≤ a) (hi : a < 136) :
    (s.doSerialise x y).doKhash.BUF.read a =
      (if a = 64 then 0x01#8 else 0#8) ||| (if a = 135 then 0x80#8 else 0#8) := by
  have length : (pad (ser x y)).length = 136 := by rw [pad_length, ser_length]
  rw [derived_read hw _ _ hi, pad_getD _ (by rwa [length]), length, ser_length, if_neg (by omega)]

theorem derived_message : (s.doSerialise x y).doKhash.BUF.readBytes 0 64 = ser x y := by
  rw [← ser_length x y]
  refine Memory.readBytes_eq_of_getD fun k hk => derived_read_of_lt hw x y ?_
  rwa [ser_length] at hk

theorem derived_S : (s.doSerialise x y).doKhash.S = absorbBlock zeroLanes (pad (ser x y)) := by
  rw [State.doKhash_S_of_one_block (s.doSerialise_paddedLen x y), derived_block hw]

theorem derived_DIG : (s.doSerialise x y).doKhash.DIG = keccak256 (ser x y) := by
  rw [State.doKhash_eq_of_wf (s.doSerialise_wf x y hw), State.setDIG_DIG, State.doSerialise_MLEN,
    show (64#64).toNat = 64 from rfl, s.doSerialise_readBytes x y hw]

/-- The 64 bytes of the point and their padding are the first 136 bytes; no byte above and no register changes. -/
theorem derived_frame :
    keepsAllBut (fun p => p = .lanes ∨ p = .dig ∨ p = .mlen ∨ p = .plen ∨ ∃ a, p = .byte a ∧ a < 136) s
      (s.doSerialise x y).doKhash := by
  refine keepsAllBut_trans ?serialised (doKhash_frame ?padded (.inl rfl) (.inr (.inl rfl)))
  case serialised =>
    refine keepsAllBut_mono (s.doSerialise_frame_of_wf hw x y) fun p changed => ?_
    obtain rfl | ⟨a, rfl, ha⟩ := changed
    · exact .inr (.inr (.inl rfl))
    · exact .inr (.inr (.inr (.inr ⟨a, rfl, by omega⟩)))
  case padded =>
    refine keepsAllBut_mono (State.doKpad_frame_of_wf (s.doSerialise_wf x y hw)) fun p changed => ?_
    rw [State.doSerialise_paddedLen] at changed
    obtain rfl | ⟨a, rfl, -, ha⟩ := changed
    · exact .inr (.inr (.inr (.inl rfl)))
    · exact .inr (.inr (.inr (.inr ⟨a, rfl, ha⟩)))

end Derived

/-! ### K2ADDR (R182, R183) -/

theorem encode_k2addr_toNat (rk : XReg) : (encode (.k2addr rk)).toNat = 0x30 + 4096 * rk.val := by
  rw [encode, packFields_toNat, xfield_toNat]
  rfl

theorem exec_k2addr_of_zero {rk : XReg} {s : State} (h : s.x[rk].toNat = 0) :
    exec (.k2addr rk) s = .next (s.raise .identityOperand (encode (.k2addr rk))) := by
  rw [exec, execK2addr, State.readX, h, smul_zero_left]

theorem exec_k2addr_of_pt {rk : XReg} {s : State} {x y : XWord} (h : smul s.x[rk].toNat generator = .pt x y) :
    exec (.k2addr rk) s = .next (s.doSerialise x y).doKhash := by
  rw [exec, execK2addr, State.readX, h]

theorem k2addr_of_pt {k : Nat} {x y : XWord} (h : smul k generator = .pt x y) :
    k2addr k = some ((keccak256 (ser x y)).toList.drop 12) := by
  rw [k2addr, h]

/-- Settles O27. -/
theorem k2addrDerivesTheAddress : Obligations.K2addrDerivesTheAddress := by
  refine fun rk s hw => ⟨encode_k2addr_toNat rk, fun zero => ?fault, fun nonzero => ?derives⟩
  case fault => exact ⟨_, exec_k2addr_of_zero zero, raise_records s .identityOperand _⟩
  case derives =>
    obtain ⟨x, y, key⟩ := exists_public_key nonzero
    refine ⟨_, x, y, exec_k2addr_of_pt key, key, fun j hj => ?point, ?first, fun a lo hi => ?zeros, ?last, ?mlen, ?plen,
      ?lanes, ?digest, ?address, derived_frame hw x y⟩
    case point =>
      rw [derived_read_of_lt hw x y (by omega), derived_read_of_lt hw x y (by omega)]
      exact ser_getD x y hj
    case first => exact derived_read_of_padding hw x y (by decide) (by decide)
    case zeros => rw [derived_read_of_padding hw x y (by omega) (by omega), if_neg (by omega), if_neg (by omega)]; rfl
    case last => exact derived_read_of_padding hw x y (by decide) (by decide)
    case mlen => rw [derived_MLEN]; rfl
    case plen => rw [derived_PLEN]; rfl
    case lanes => rw [derived_S hw, derived_block hw]; rfl
    case digest => rw [derived_DIG hw, derived_message hw]
    case address => rw [k2addr_of_pt key, derived_DIG hw]

/-- Settles O29: each of the parts is a function of the public key, and that is a function of the key. -/
theorem k2addrReadsOnlyItsKey : Obligations.K2addrReadsOnlyItsKey := by
  intro rk rk' s s' hw hw' same nonzero
  obtain ⟨x, y, key⟩ := exists_public_key nonzero
  have key' : smul s'.x[rk'].toNat generator = .pt x y := by rw [same, key]
  refine ⟨_, _, exec_k2addr_of_pt key, exec_k2addr_of_pt key', ?digest, ?lanes, ?mlen, ?plen, fun a ha => ?bytes⟩
  case digest => rw [derived_DIG hw, derived_DIG hw']
  case lanes => rw [derived_S hw, derived_S hw']
  case mlen => rw [derived_MLEN, derived_MLEN]
  case plen => rw [derived_PLEN, derived_PLEN]
  case bytes => rw [derived_read hw x y ha, derived_read hw' x y ha]

/-! ### The long route (R184) -/

/-- Serialising and hashing neither read nor write a point register. -/
theorem State.setP_doSerialise_doKhash (s : State) (j : PReg) (v : PointReg) (x y : XWord) :
    ((s.setP j v).doSerialise x y).doKhash = (s.doSerialise x y).doKhash.setP j v := by
  rw [State.doKhash_eq, State.doKhash_eq]
  rfl

/-- LDG and SMUL into the same register leave the public key there, and nothing else changed. -/
theorem exec_smul_after_ldg (j : PReg) (rk : XReg) (s : State) :
    exec (.smul j rk j) (s.writePoint j generator) = .next (s.writePoint j (smul s.x[rk].toNat generator)) := by
  have operand : (s.writePoint j generator).P[j].value = generator := s.readPoint_writePoint j generator
  have twice (p : Point) : (s.writePoint j generator).writePoint j p = s.writePoint j p := by
    simp only [State.writePoint, State.setP, Vector.set_set]
  rw [exec_smul, operand, twice]
  rfl

/-- Settles O28: the long route ends in the state of K2ADDR with the public key stored in `P[j]`. -/
theorem k2addrEqualsTheLongRoute : Obligations.K2addrEqualsTheLongRoute := by
  refine fun j rk s => ⟨fun nonzero => ?hashes, fun zero => ?faults⟩
  case hashes =>
    obtain ⟨x, y, key⟩ := exists_public_key nonzero
    have multiplied := exec_smul_after_ldg j rk s
    rw [key] at multiplied
    have serialised := exec_pser_of_pt (s.readPoint_writePoint j (.pt x y))
    have hashed : exec .khash ((s.writePoint j (.pt x y)).doSerialise x y) =
        .next ((s.doSerialise x y).doKhash.writePoint j (.pt x y)) := by
      rw [exec, execKhash_of_fits (State.doSerialise_fits _ x y), State.writePoint, State.setP_doSerialise_doKhash]
      rfl
    refine ⟨_, _, _, _, _, exec_ldg j s, multiplied, serialised, hashed, exec_k2addr_of_pt key,
      State.setP_S .., State.setP_BUF .., State.setP_MLEN .., State.setP_PLEN .., State.setP_DIG .., ?_, setP_frame _ j _⟩
    rw [key]
    exact State.readPoint_writePoint _ j (.pt x y)
  case faults =>
    have multiplied := exec_smul_after_ldg j rk s
    rw [zero, smul_zero_left] at multiplied
    refine ⟨_, _, _, _, exec_ldg j s, multiplied, ?_, setP_frame s j _,
      exec_pser_of_inf (s.readPoint_writePoint j .inf), raise_records _ .identityOperand _,
      exec_k2addr_of_zero zero, raise_records s .identityOperand _⟩
    rw [State.writePoint_self]
    rfl

end Sys2Proof.Machine

/-! PROOFS. Faults and liveness (R202 to R204, R208, R216, R235): what a recorded fault can come from, and what a command, a
step and a block at rest answer. All of it is read off the effects of commands and steps. -/

namespace Sys2Proof.Machine

/-! ### Where a fault comes from (R203, R208) -/

/-- Reset leaves no fault recorded (R230). -/
@[simp] theorem State.resetBy_faulted (s : State) (draw : ResetDraw) : (s.resetBy draw).faulted = false := by
  rw [State.faulted, State.resetBy_STATUS]
  rfl

/-- A command whose word was decoded and that faults records the word written: decoding loses nothing (R86, R203). -/
theorem CommandEffect.raises_word {w : CmdWord} {i : Instr} {s t : State} (decoded : decode w = .ok i)
    (effect : CommandEffect i s t) (changed : t.STATUS ≠ s.STATUS) : ∃ c, t = s.raise c w := by
  obtain ⟨c, rfl⟩ := effect.status.resolve_left changed
  exact ⟨c, by rw [encodeOfDecodeIsTheWord w i decoded]⟩

/-- The only steps into a recorded fault: a CMD write that takes the fault of its own word and does nothing else. -/
theorem StepEffect.raises_of_faulted {s t : State} (effect : StepEffect s t) (ready : s.faulted = false)
    (faulted : t.faulted = true) : ∃ d rest c, s.pending = .write 64 0x0000 d :: rest ∧
      t = ((s.setPending rest).raise c (d.setWidth 32)).pushReply .ok := by
  have changed : t.STATUS ≠ s.STATUS := by
    intro same
    rw [State.faulted, same, ← State.faulted, ready] at faulted
    exact Bool.false_ne_true faulted
  cases effect with
  | atRest idle => exact absurd rfl changed
  | answer r head => exact absurd rfl changed
  | illegal head _ => exact ⟨_, _, .illegalCommand, head, rfl⟩
  | command head _ decoded effect =>
    obtain ⟨c, rfl⟩ := effect.raises_word decoded changed
    exact ⟨_, _, c, head, rfl⟩
  | clear head bit =>
    rw [State.pushReply_faulted, State.clearFault_faulted] at faulted
    exact absurd faulted Bool.false_ne_true
  | store head located stored =>
    obtain ⟨-, status, -⟩ := State.writeLoc_keeps stored
    exact absurd status changed
  | reset head =>
    rw [State.resetBy_faulted] at faulted
    exact absurd faulted Bool.false_ne_true

/-- Settles O54: the step is the fault entry of the word written, between taking the transaction off and answering it. -/
theorem faultsArePrecise : Obligations.FaultsArePrecise := by
  intro s t hst ready faulted
  obtain ⟨d, rest, c, head, rfl⟩ := (StepEffect.of_step hst).raises_of_faulted ready faulted
  obtain ⟨status, frame⟩ := raise_records (s.setPending rest) c (d.setWidth 32)
  obtain ⟨codeLow, codeHigh⟩ := c.code_toNat
  refine ⟨d, rest, head, ⟨rfl, rfl⟩, ⟨c.code.toNat, codeLow, codeHigh, ?_⟩, keepsAllBut_answered .ok frame⟩
  rw [State.pushReply_STATUS, status, BitVec.toNat_setWidth]

/-! ### Nothing stops the block (R202, R235) -/

/-- Settles O51: both lists of effects cover every case and hold next states only. -/
theorem everyStepAnswersNext : Obligations.EveryStepAnswersNext := by
  refine ⟨fun i s => ?_, fun s => ?_⟩
  · obtain ⟨t, next, -⟩ := exec_effect i s
    exact ⟨t, next⟩
  · obtain ⟨t, next, -⟩ := step_effect s
    exact ⟨t, next⟩

/-! ### Dropped commands and the block at rest (R204, R216) -/

theorem State.runWord_of_faulted {s : State} (w : CmdWord) (faulted : s.faulted = true) : s.runWord w = .next s := by
  rw [State.runWord, if_pos faulted]

/-- Settles O37: of a dropped command only the host's side of the bus is left. -/
theorem commandsAreDroppedWhileFaulted : Obligations.CommandsAreDroppedWhileFaulted := by
  intro s data faulted
  refine writeGives_of_busWrite (fun rest => s.setPending rest) (fun rest => ?_) (fun _ => rfl) (fun _ => rfl)
    fun rest => answer_frame s rest .ok
  rw [State.busWrite_cmd, State.runWord_of_faulted (s := s.setPending rest) _ faulted, withReply_next]

theorem step_of_idle {s : State} (idle : s.pending = []) : step s = .next s := by
  rw [step, State.stepEvent, idle]

/-- Settles O52. -/
theorem blockAtRestKeepsItsState : Obligations.BlockAtRestKeepsItsState := fun _ idle => step_of_idle idle

end Sys2Proof.Machine
